-- ==== Sys2Proof/Word.lean ====
section
/-!
DEFINITION. The bit vectors of the hardware (00_scope.md R6, R10, R11): 32-bit words, 8-bit bytes, 5-bit register
indices, and the three access widths. The spec's `u(v)` is `BitVec.toNat v`, its `s(v)` is `BitVec.toInt v`, and its
slice `v[hi:lo]` is `v.extractLsb' lo (hi - lo + 1)`.
-/

namespace Sys2Proof

/-- A register value, an address, the pc or an instruction word: 32 bits (R6, R11). -/
abbrev Word := BitVec 32

/-- A byte of memory (R6). -/
abbrev Byte := BitVec 8

/-- A register index, the 5-bit fields `rd`, `rs1`, `rs2` (R6, R30): no index can be out of range. -/
abbrev Reg := BitVec 5

/-- The widths of a memory access, 1, 2 and 4 bytes (R64, R65, R69). -/
inductive Width where
  | byte
  | half
  | word
deriving DecidableEq, Repr

/-- How many bytes an access of the width moves (R69). -/
def Width.bytes : Width → Nat
  | .byte => 1
  | .half => 2
  | .word => 4

end Sys2Proof
end

