-- ==== Sys2Proof/Machine/SignExtension.lean ====
section
/-!
DEFINITION. The sign-extension unit (40_sign_extension_and_offset_assembly.md R140, R141), "used by every other component"
(R142): the decoder, the offset assembly and the loads.
-/

namespace Sys2Proof.Machine

/-- `sign_extend(field, width)` (R140), for a width in 1 .. 32: at width 32 the mask is 0 and the field is returned. -/
def signExtend (field : Word) (width : Nat) : Word :=
  if field.getLsbD (width - 1) then field ||| (0xFFFFFFFF#32 <<< width) else field

/-- `sext_N(v)` is `sign_extend(zext_N(v), N)` (R15, R140). -/
def sext {n : Nat} (v : BitVec n) : Word := signExtend (v.setWidth 32) n

end Sys2Proof.Machine
end

