-- ==== Sys2Proof/Config.lean ====
section
/-!
DEFINITION. The open parameters of the hardware (00_scope.md R7, 92_eei_decisions.md D1, D4, D5, D16, D22), as plain
data. No rule assumes a value of one: every meaning takes them from the state's `cfg` field, and `Config.specDefault` is
used only by `State.reset`, `decodeTableWord` and the tests (notes/assumptions/1.md and 2.md).
-/

namespace Sys2Proof

/-- A selector of a custom instruction: the pair (funct3, funct7) under opcode `0x2b` (R7, R119). -/
structure Selector where
  funct3 : BitVec 3
  funct7 : BitVec 7
deriving DecidableEq, Repr

/-- The open parameters (R7), one field each. -/
structure Config where
  /-- `MEM_SIZE`: memory is the bytes 0 .. `MEM_SIZE`-1 (R60). -/
  memSize : Nat
  /-- `INIT_MEM`: the bytes the loader wrote, by rising address and without zeros; every other byte is 0 (R7, R291). -/
  initMem : List (Nat × Byte)
  /-- `RESET_PC`: the first pc, any 32-bit value (R7, R292). -/
  resetPc : Word
  /-- `X0_HARDWIRED`: whether register 0 reads 0 and discards writes (R31, R32). -/
  x0Hardwired : Bool
  /-- `SEL_MAC`. -/
  selMac : Selector
  /-- `SEL_ACC`. -/
  selAcc : Selector
  /-- `SEL_GEP`. -/
  selGep : Selector
  /-- `FAIL_STATUS`: the process status of a fatal halt, not 0 (R262). -/
  failStatus : Int
deriving DecidableEq, Repr

/-- The defaults R7 names. R7 gives `MEM_SIZE` none: 4096 is the value of 95_test_vectors.md's conventions
(DESIGN CHOICE, notes/assumptions/2.md). -/
def Config.specDefault : Config where
  memSize := 4096
  initMem := []
  resetPc := 0
  x0Hardwired := false
  selMac := ⟨0, 0x00⟩
  selAcc := ⟨1, 0x00⟩
  selGep := ⟨2, 0x00⟩
  failStatus := 1

end Sys2Proof
end

