-- ==== Sys2Proof/Syntax.lean ====
section
/-!
DEFINITION. The decoder's record of a word (30_encoding.md R102 to R109), the 35 instructions (R112), and the two ways a
word is rejected (R120, R121).
-/

namespace Sys2Proof

/-- The immediate of an I-format record (R103, R109). -/
inductive RecordImm where
  /-- Opcodes `0x13` and `0x03`: `imm = sext_12(imm12)`, a 32-bit value. -/
  | extended (imm : Word)
  /-- Opcode `0x73`: `imm12` as it stands in the word. -/
  | unextended (imm12 : BitVec 12)
deriving DecidableEq, Repr

/-- The decoded record, one variant per format (R102 to R107), each with the fields of its format and "the original
32-bit raw word for diagnostics" (R109). The fragments of the other immediates stay as they are, unsigned. -/
inductive Record where
  /-- R102: opcodes `0x33` and `0x2b`. -/
  | rType (raw : Word) (rd rs1 rs2 : Reg) (funct3 : BitVec 3) (funct7 : BitVec 7)
  /-- R103: opcodes `0x13`, `0x03` and `0x73`. -/
  | iType (raw : Word) (rd rs1 : Reg) (funct3 : BitVec 3) (imm : RecordImm)
  /-- R104: opcode `0x23`. -/
  | sType (raw : Word) (rs1 rs2 : Reg) (funct3 : BitVec 3) (imm5 : BitVec 5) (imm7 : BitVec 7)
  /-- R105: opcode `0x63`. -/
  | sbType (raw : Word) (rs1 rs2 : Reg) (funct3 : BitVec 3) (imm5 : BitVec 5) (imm7 : BitVec 7)
  /-- R106: opcode `0x37`. -/
  | uType (raw : Word) (rd : Reg) (imm20 : BitVec 20)
  /-- R107: opcode `0x6F`. -/
  | ujType (raw : Word) (rd : Reg) (imm20 : BitVec 20)
deriving DecidableEq, Repr

/-- The instructions, one constructor per row of R112, with the operands as the record holds them: the immediate of I-type
arithmetic and of loads is the decoder's 32-bit `imm` (R109). A constructor carries every bit of its word that the row does
not fix, the ignored ones too (`imm12[11:5]` of `slli`, R115; all four fields of `ecall`, R118), so that a word and its
instruction determine each other (notes/assumptions/7.md). -/
inductive Instr where
  -- R-type arithmetic, opcode `0x33` (R161 to R173)
  | add (rd rs1 rs2 : Reg)
  | sub (rd rs1 rs2 : Reg)
  | mul (rd rs1 rs2 : Reg)
  | sll (rd rs1 rs2 : Reg)
  | mulh (rd rs1 rs2 : Reg)
  | slt (rd rs1 rs2 : Reg)
  | xor (rd rs1 rs2 : Reg)
  | div (rd rs1 rs2 : Reg)
  | srl (rd rs1 rs2 : Reg)
  | sra (rd rs1 rs2 : Reg)
  | or (rd rs1 rs2 : Reg)
  | rem (rd rs1 rs2 : Reg)
  | and (rd rs1 rs2 : Reg)
  -- I-type arithmetic, opcode `0x13` (R181 to R188)
  | addi (rd rs1 : Reg) (imm : Word)
  | slli (rd rs1 : Reg) (imm : Word)
  | slti (rd rs1 : Reg) (imm : Word)
  | xori (rd rs1 : Reg) (imm : Word)
  | srli (rd rs1 : Reg) (shamt : BitVec 5)
  | srai (rd rs1 : Reg) (shamt : BitVec 5)
  | ori (rd rs1 : Reg) (imm : Word)
  | andi (rd rs1 : Reg) (imm : Word)
  -- loads, opcode `0x03` (R196 to R198)
  | lb (rd rs1 : Reg) (imm : Word)
  | lh (rd rs1 : Reg) (imm : Word)
  | lw (rd rs1 : Reg) (imm : Word)
  -- stores, opcode `0x23` (R206 to R208)
  | sb (rs1 rs2 : Reg) (imm5 : BitVec 5) (imm7 : BitVec 7)
  | sh (rs1 rs2 : Reg) (imm5 : BitVec 5) (imm7 : BitVec 7)
  | sw (rs1 rs2 : Reg) (imm5 : BitVec 5) (imm7 : BitVec 7)
  -- control transfer, opcodes `0x63` and `0x6F` (R216 to R218)
  | beq (rs1 rs2 : Reg) (imm5 : BitVec 5) (imm7 : BitVec 7)
  | bne (rs1 rs2 : Reg) (imm5 : BitVec 5) (imm7 : BitVec 7)
  | jal (rd : Reg) (imm20 : BitVec 20)
  -- upper immediate, opcode `0x37` (R230)
  | lui (rd : Reg) (imm20 : BitVec 20)
  -- custom, opcode `0x2b` (R236 to R238)
  | mac (rd rs1 rs2 : Reg)
  | acc (rd rs1 rs2 : Reg)
  | gep (rd rs1 rs2 : Reg)
  -- environment call, opcode `0x73` (R246)
  | ecall (rd rs1 : Reg) (funct3 : BitVec 3) (imm12 : BitVec 12)
deriving DecidableEq, Repr

/-- Why a word is no instruction, with the word itself (R45, R109). -/
inductive Rejection where
  /-- Raised by the decoder: the opcode is none of the nine (R108, R120). -/
  | invalidOpcode (raw : Word)
  /-- Raised by the selection: a known opcode whose selector fields match no row (R111, R121). -/
  | invalidInstruction (raw : Word)
deriving DecidableEq, Repr

/-- Why a list of bytes starts with no instruction (R100: every instruction is four bytes). -/
inductive ByteRejection where
  /-- Fewer than four bytes were given. The step never meets it: its fetch reads four bytes or raises. -/
  | tooFewBytes
  /-- The four bytes form a word that is no instruction. -/
  | word (why : Rejection)
deriving DecidableEq, Repr

end Sys2Proof
end

