-- ==== Sys2Proof/WellFormed.lean ====
section
/-!
DEFINITION. Which parameters, memory images, instructions and offsets are well formed: what R7 demands of the parameters, the
canonical form of a memory image, that a 32-bit immediate or offset is one its field or fragments can represent
(30_encoding.md R110), and that the custom selectors tell the custom instructions apart. The other operand fields of `Instr`
have exactly the width of their field in the word, so no such operand can be out of range (10_state.md R30).
-/

namespace Sys2Proof

/-- The canonical form of a memory image: addresses strictly rising, and no cell holding 0, which is what an unlisted
address reads as (20_memory.md R60, 70_reset_and_hazards.md R291). -/
abbrev CanonicalCells (cells : List (Nat × Byte)) : Prop :=
  cells.Pairwise (fun c d => c.1 < d.1) ∧ ∀ c ∈ cells, c.2 ≠ 0

/-- Every cell of the image lies in memory, at an address below `size` (R60). -/
abbrev CellsBelow (size : Nat) (cells : List (Nat × Byte)) : Prop :=
  ∀ c ∈ cells, c.1 < size

/-- The three custom selectors are pairwise different (R7, D16). -/
abbrev Config.SelectorsDiffer (cfg : Config) : Prop :=
  cfg.selMac ≠ cfg.selAcc ∧ cfg.selMac ≠ cfg.selGep ∧ cfg.selAcc ≠ cfg.selGep

/-- The constraints R7 puts on the parameters. -/
abbrev Config.WellFormed (cfg : Config) : Prop :=
  (1 ≤ cfg.memSize ∧ cfg.memSize ≤ 2 ^ 32)
    ∧ (CanonicalCells cfg.initMem ∧ CellsBelow cfg.memSize cfg.initMem)
    ∧ cfg.SelectorsDiffer
    ∧ cfg.failStatus ≠ 0

/-- A branch offset its fragments can represent: even, -4096 .. 4094 (R110, R143). -/
abbrev BranchOffsetFits (o : Word) : Prop :=
  -4096 ≤ o.toInt ∧ o.toInt ≤ 4094 ∧ o.toNat % 2 = 0

/-- A jump offset its fragment can represent: even, -1048576 .. 1048574 (R110, R144). -/
abbrev JumpOffsetFits (o : Word) : Prop :=
  -1048576 ≤ o.toInt ∧ o.toInt ≤ 1048574 ∧ o.toNat % 2 = 0

/-- An immediate or store offset that 12 bits can represent: -2048 .. 2047 (R110, R145). -/
abbrev Imm12Fits (o : Word) : Prop :=
  -2048 ≤ o.toInt ∧ o.toInt ≤ 2047

/-- An instruction is well formed under parameters when a word can select it: a 32-bit immediate must be the extension of a
12-bit field (R109, R110), and for the custom instructions the selectors must differ (R7, R119). Every other operand has the
width of its field. -/
abbrev Instr.WellFormed (cfg : Config) : Instr → Prop
  | .mac _ _ _ | .acc _ _ _ | .gep _ _ _ => cfg.SelectorsDiffer
  | .addi _ _ imm | .slli _ _ imm | .slti _ _ imm | .xori _ _ imm | .ori _ _ imm | .andi _ _ imm
  | .lb _ _ imm | .lh _ _ imm | .lw _ _ imm => Imm12Fits imm
  | .add _ _ _ | .sub _ _ _ | .mul _ _ _ | .sll _ _ _ | .mulh _ _ _ | .slt _ _ _ | .xor _ _ _ | .div _ _ _
  | .srl _ _ _ | .sra _ _ _ | .or _ _ _ | .rem _ _ _ | .and _ _ _
  | .srli _ _ _ | .srai _ _ _
  | .sb _ _ _ _ | .sh _ _ _ _ | .sw _ _ _ _
  | .beq _ _ _ _ | .bne _ _ _ _ | .jal _ _ | .lui _ _
  | .ecall _ _ _ _ => True

end Sys2Proof
end

