-- ==== Sys2Proof/Decode.lean ====
section
/-!
DEFINITION. The instruction decoder and the selection (30_encoding.md R100 to R124), the encoder, and the opcode table's
masks and matches (R112). Decoding is total: every word gives an instruction or is rejected by name (R108, R121).
-/

namespace Sys2Proof

/-! ### The fields of a word (R101 to R107) -/

/-- `raw[6:0]` (R101). -/
def opcodeField (raw : Word) : BitVec 7 := raw.extractLsb' 0 7
/-- `raw[11:7]` (R102, R103, R106, R107). -/
def rdField (raw : Word) : Reg := raw.extractLsb' 7 5
/-- `raw[14:12]` (R102 to R105). -/
def funct3Field (raw : Word) : BitVec 3 := raw.extractLsb' 12 3
/-- `raw[19:15]` (R102 to R105). -/
def rs1Field (raw : Word) : Reg := raw.extractLsb' 15 5
/-- `raw[24:20]` (R102, R104, R105); in the I format the same bits are `imm12[4:0]` (R103, R180). -/
def rs2Field (raw : Word) : Reg := raw.extractLsb' 20 5
/-- `raw[31:25]` (R102); in the I format the same bits are `imm12[11:5]` (R103, R114). -/
def funct7Field (raw : Word) : BitVec 7 := raw.extractLsb' 25 7
/-- `raw[31:20]` (R103). -/
def imm12Field (raw : Word) : BitVec 12 := raw.extractLsb' 20 12
/-- `raw[11:7]` (R104, R105). -/
def imm5Field (raw : Word) : BitVec 5 := raw.extractLsb' 7 5
/-- `raw[31:25]` (R104, R105). -/
def imm7Field (raw : Word) : BitVec 7 := raw.extractLsb' 25 7
/-- `raw[31:12]` (R106, R107). -/
def imm20Field (raw : Word) : BitVec 20 := raw.extractLsb' 12 20

/-! ### The decoder: opcode to format (R108) -/

/-- The raw word a record keeps (R109). -/
def Record.raw : Record → Word
  | .rType raw _ _ _ _ _ => raw
  | .iType raw _ _ _ _ => raw
  | .sType raw _ _ _ _ _ => raw
  | .sbType raw _ _ _ _ _ => raw
  | .uType raw _ _ => raw
  | .ujType raw _ _ => raw

/-- The immediate of opcodes `0x13` and `0x03`, "sign-extended to 32 bits immediately during decode" (R109, R142). -/
def immI (raw : Word) : Word := Machine.sext (imm12Field raw)

/-- The record of a word, in the format its opcode picks (R108), with the immediate of R109; `none` for the 119 opcodes
outside the table of R108. -/
def decodeRecord (raw : Word) : Option Record :=
  match opcodeField raw with
  | 0x33#7 | 0x2b#7 =>
    some (.rType raw (rdField raw) (rs1Field raw) (rs2Field raw) (funct3Field raw) (funct7Field raw))
  | 0x13#7 | 0x03#7 =>
    some (.iType raw (rdField raw) (rs1Field raw) (funct3Field raw) (.extended (immI raw)))
  | 0x73#7 =>
    some (.iType raw (rdField raw) (rs1Field raw) (funct3Field raw) (.unextended (imm12Field raw)))
  | 0x23#7 => some (.sType raw (rs1Field raw) (rs2Field raw) (funct3Field raw) (imm5Field raw) (imm7Field raw))
  | 0x63#7 => some (.sbType raw (rs1Field raw) (rs2Field raw) (funct3Field raw) (imm5Field raw) (imm7Field raw))
  | 0x37#7 => some (.uType raw (rdField raw) (imm20Field raw))
  | 0x6F#7 => some (.ujType raw (rdField raw) (imm20Field raw))
  | _ => none

/-! ### The selection: one row of R112 or none -/

/-- R113: opcode `0x33`, by the exact pair (funct3, funct7). -/
def selectArith (rd rs1 rs2 : Reg) (funct3 : BitVec 3) (funct7 : BitVec 7) : Option Instr :=
  match funct3, funct7 with
  | 0#3, 0x00#7 => some (.add rd rs1 rs2)
  | 0#3, 0x20#7 => some (.sub rd rs1 rs2)
  | 0#3, 0x01#7 => some (.mul rd rs1 rs2)
  | 1#3, 0x00#7 => some (.sll rd rs1 rs2)
  | 1#3, 0x01#7 => some (.mulh rd rs1 rs2)
  | 2#3, 0x00#7 => some (.slt rd rs1 rs2)
  | 4#3, 0x00#7 => some (.xor rd rs1 rs2)
  | 4#3, 0x01#7 => some (.div rd rs1 rs2)
  | 5#3, 0x00#7 => some (.srl rd rs1 rs2)
  | 5#3, 0x20#7 => some (.sra rd rs1 rs2)
  | 6#3, 0x00#7 => some (.or rd rs1 rs2)
  | 6#3, 0x01#7 => some (.rem rd rs1 rs2)
  | 7#3, 0x00#7 => some (.and rd rs1 rs2)
  | _, _ => none

/-- R119: opcode `0x2b`, by the pair (funct3, funct7) equal to a selector parameter. -/
def selectCustom (cfg : Config) (rd rs1 rs2 : Reg) (funct3 : BitVec 3) (funct7 : BitVec 7) : Option Instr :=
  if Selector.mk funct3 funct7 = cfg.selMac then some (.mac rd rs1 rs2)
  else if Selector.mk funct3 funct7 = cfg.selAcc then some (.acc rd rs1 rs2)
  else if Selector.mk funct3 funct7 = cfg.selGep then some (.gep rd rs1 rs2)
  else none

/-- `imm[11:5]`, the bits `imm12[11:5]` above bit 4 that tell `srli` from `srai` (R114). -/
def immHigh (imm : Word) : BitVec 7 := imm.extractLsb' 5 7

/-- `imm[4:0]`, the bits `imm12[4:0]`, the shift amount of the immediate shifts (R180). -/
def immLow (imm : Word) : BitVec 5 := imm.extractLsb' 0 5

/-- R114: the right shifts, funct3 = 5, told apart by `imm12[11:5]`. -/
def selectShiftRight (rd rs1 : Reg) (imm : Word) : Option Instr :=
  match immHigh imm with
  | 0x00#7 => some (.srli rd rs1 (immLow imm))
  | 0x20#7 => some (.srai rd rs1 (immLow imm))
  | _ => none

/-- R114 and R115: opcode `0x13`, by funct3, and for funct3 = 5 by `imm12[11:5]` too. -/
def selectArithImm (rd rs1 : Reg) (funct3 : BitVec 3) (imm : Word) : Option Instr :=
  match funct3 with
  | 0#3 => some (.addi rd rs1 imm)
  | 1#3 => some (.slli rd rs1 imm)
  | 2#3 => some (.slti rd rs1 imm)
  | 4#3 => some (.xori rd rs1 imm)
  | 5#3 => selectShiftRight rd rs1 imm
  | 6#3 => some (.ori rd rs1 imm)
  | 7#3 => some (.andi rd rs1 imm)
  | _ => none

/-- R116: opcode `0x03`, by funct3. -/
def selectLoad (rd rs1 : Reg) (funct3 : BitVec 3) (imm : Word) : Option Instr :=
  match funct3 with
  | 0#3 => some (.lb rd rs1 imm)
  | 1#3 => some (.lh rd rs1 imm)
  | 2#3 => some (.lw rd rs1 imm)
  | _ => none

/-- R116: opcode `0x23`, by funct3. -/
def selectStore (rs1 rs2 : Reg) (funct3 : BitVec 3) (imm5 : BitVec 5) (imm7 : BitVec 7) : Option Instr :=
  match funct3 with
  | 0#3 => some (.sb rs1 rs2 imm5 imm7)
  | 1#3 => some (.sh rs1 rs2 imm5 imm7)
  | 2#3 => some (.sw rs1 rs2 imm5 imm7)
  | _ => none

/-- R116: opcode `0x63`, by funct3. -/
def selectBranch (rs1 rs2 : Reg) (funct3 : BitVec 3) (imm5 : BitVec 5) (imm7 : BitVec 7) : Option Instr :=
  match funct3 with
  | 0#3 => some (.beq rs1 rs2 imm5 imm7)
  | 1#3 => some (.bne rs1 rs2 imm5 imm7)
  | _ => none

/-- R111: the instruction a record selects, if any. No operand is read and no address formed here. -/
def select (cfg : Config) : Record → Option Instr
  | .rType raw rd rs1 rs2 funct3 funct7 =>
    match opcodeField raw with
    | 0x33#7 => selectArith rd rs1 rs2 funct3 funct7
    | 0x2b#7 => selectCustom cfg rd rs1 rs2 funct3 funct7
    | _ => none
  | .iType raw rd rs1 funct3 (.extended imm) =>
    match opcodeField raw with
    | 0x13#7 => selectArithImm rd rs1 funct3 imm
    | 0x03#7 => selectLoad rd rs1 funct3 imm
    | _ => none
  | .iType _ rd rs1 funct3 (.unextended imm12) => some (.ecall rd rs1 funct3 imm12)
  | .sType _ rs1 rs2 funct3 imm5 imm7 => selectStore rs1 rs2 funct3 imm5 imm7
  | .sbType _ rs1 rs2 funct3 imm5 imm7 => selectBranch rs1 rs2 funct3 imm5 imm7
  | .uType _ rd imm20 => some (.lui rd imm20)
  | .ujType _ rd imm20 => some (.jal rd imm20)

/-- Decoding a word: the record (R108), then the selection (R111), each rejecting by name. The word a failed selection
reports is the record's own raw word (R45, R109). -/
def decode (cfg : Config) (raw : Word) : Except Rejection Instr :=
  match decodeRecord raw with
  | none => .error (.invalidOpcode raw)
  | some record =>
    match select cfg record with
    | none => .error (.invalidInstruction record.raw)
    | some i => .ok i

/-- The little-endian word of four bytes: `raw[7:0]` is the first (R62, R100). -/
def wordOfBytes (b0 b1 b2 b3 : Byte) : Word := b3 ++ b2 ++ b1 ++ b0

/-- The byte `v[8k+7:8k]` of a word (R62, R65). -/
def byteOf (v : Word) (k : Nat) : Byte := v.extractLsb' (8 * k) 8

/-- The instruction at the start of a list of bytes, and the bytes after it (R100). -/
def decodeBytes (cfg : Config) : List Byte → Except ByteRejection (Instr × List Byte)
  | b0 :: b1 :: b2 :: b3 :: rest =>
    match decode cfg (wordOfBytes b0 b1 b2 b3) with
    | .ok i => .ok (i, rest)
    | .error why => .error (.word why)
  | _ => .error .tooFewBytes

/-- The bytes of an instruction word as memory holds them, the least significant first (R62, R291). -/
def bytesOfWord (v : Word) : List Byte := [byteOf v 0, byteOf v 1, byteOf v 2, byteOf v 3]

/-- The word of an opcode-table row: its `nbits` low bits, every bit above them 0 (host interface). -/
def tableWord (nbits w : Nat) : Word := BitVec.ofNat 32 (w % 2 ^ nbits)

/-- The instruction the decoder reads from a word of the opcode table, laid out as the hardware stores it and under the
default selectors (host interface; notes/assumptions/2.md). -/
def decodeTableWord (nbits w : Nat) : Option Instr :=
  match decodeBytes Config.specDefault (bytesOfWord (tableWord nbits w)) with
  | .ok (i, _) => some i
  | .error _ => none

/-! ### The encoder: the formats written out from R102 to R107 -/

/-- R102. -/
def rWord (funct7 : BitVec 7) (rs2 rs1 : Reg) (funct3 : BitVec 3) (rd : Reg) (opcode : BitVec 7) : Word :=
  funct7 ++ rs2 ++ rs1 ++ funct3 ++ rd ++ opcode

/-- R103. -/
def iWord (imm12 : BitVec 12) (rs1 : Reg) (funct3 : BitVec 3) (rd : Reg) (opcode : BitVec 7) : Word :=
  imm12 ++ rs1 ++ funct3 ++ rd ++ opcode

/-- R104 and R105: the S and SB formats place their fields alike. -/
def sWord (imm7 : BitVec 7) (rs2 rs1 : Reg) (funct3 : BitVec 3) (imm5 : BitVec 5) (opcode : BitVec 7) : Word :=
  imm7 ++ rs2 ++ rs1 ++ funct3 ++ imm5 ++ opcode

/-- R106 and R107: the U and UJ formats place their fields alike. -/
def uWord (imm20 : BitVec 20) (rd : Reg) (opcode : BitVec 7) : Word :=
  imm20 ++ rd ++ opcode

/-- The 12-bit field `imm12` of an immediate: the bits the decoder extends (R103, R109). -/
def imm12Of (imm : Word) : BitVec 12 := imm.extractLsb' 0 12

/-- The word of an instruction, by its row of R112. -/
def encode (cfg : Config) : Instr → Word
  | .add rd rs1 rs2 => rWord 0x00 rs2 rs1 0 rd 0x33
  | .sub rd rs1 rs2 => rWord 0x20 rs2 rs1 0 rd 0x33
  | .mul rd rs1 rs2 => rWord 0x01 rs2 rs1 0 rd 0x33
  | .sll rd rs1 rs2 => rWord 0x00 rs2 rs1 1 rd 0x33
  | .mulh rd rs1 rs2 => rWord 0x01 rs2 rs1 1 rd 0x33
  | .slt rd rs1 rs2 => rWord 0x00 rs2 rs1 2 rd 0x33
  | .xor rd rs1 rs2 => rWord 0x00 rs2 rs1 4 rd 0x33
  | .div rd rs1 rs2 => rWord 0x01 rs2 rs1 4 rd 0x33
  | .srl rd rs1 rs2 => rWord 0x00 rs2 rs1 5 rd 0x33
  | .sra rd rs1 rs2 => rWord 0x20 rs2 rs1 5 rd 0x33
  | .or rd rs1 rs2 => rWord 0x00 rs2 rs1 6 rd 0x33
  | .rem rd rs1 rs2 => rWord 0x01 rs2 rs1 6 rd 0x33
  | .and rd rs1 rs2 => rWord 0x00 rs2 rs1 7 rd 0x33
  | .addi rd rs1 imm => iWord (imm12Of imm) rs1 0 rd 0x13
  | .slli rd rs1 imm => iWord (imm12Of imm) rs1 1 rd 0x13
  | .slti rd rs1 imm => iWord (imm12Of imm) rs1 2 rd 0x13
  | .xori rd rs1 imm => iWord (imm12Of imm) rs1 4 rd 0x13
  | .srli rd rs1 shamt => rWord 0x00 shamt rs1 5 rd 0x13
  | .srai rd rs1 shamt => rWord 0x20 shamt rs1 5 rd 0x13
  | .ori rd rs1 imm => iWord (imm12Of imm) rs1 6 rd 0x13
  | .andi rd rs1 imm => iWord (imm12Of imm) rs1 7 rd 0x13
  | .lb rd rs1 imm => iWord (imm12Of imm) rs1 0 rd 0x03
  | .lh rd rs1 imm => iWord (imm12Of imm) rs1 1 rd 0x03
  | .lw rd rs1 imm => iWord (imm12Of imm) rs1 2 rd 0x03
  | .sb rs1 rs2 imm5 imm7 => sWord imm7 rs2 rs1 0 imm5 0x23
  | .sh rs1 rs2 imm5 imm7 => sWord imm7 rs2 rs1 1 imm5 0x23
  | .sw rs1 rs2 imm5 imm7 => sWord imm7 rs2 rs1 2 imm5 0x23
  | .beq rs1 rs2 imm5 imm7 => sWord imm7 rs2 rs1 0 imm5 0x63
  | .bne rs1 rs2 imm5 imm7 => sWord imm7 rs2 rs1 1 imm5 0x63
  | .jal rd imm20 => uWord imm20 rd 0x6F
  | .lui rd imm20 => uWord imm20 rd 0x37
  | .mac rd rs1 rs2 => rWord cfg.selMac.funct7 rs2 rs1 cfg.selMac.funct3 rd 0x2b
  | .acc rd rs1 rs2 => rWord cfg.selAcc.funct7 rs2 rs1 cfg.selAcc.funct3 rd 0x2b
  | .gep rd rs1 rs2 => rWord cfg.selGep.funct7 rs2 rs1 cfg.selGep.funct3 rd 0x2b
  | .ecall rd rs1 funct3 imm12 => iWord imm12 rs1 funct3 rd 0x73

/-! ### The opcode table: `raw &&& mask = match` (R112) -/

/-- The fixed fields of a row of R112. -/
structure TableRow where
  mask : Word
  fixed : Word
deriving DecidableEq, Repr

/-- A word is in a row when its fixed bits are the row's (R112). -/
def TableRow.holds (row : TableRow) (raw : Word) : Prop := raw &&& row.mask = row.fixed

/-- The row of a custom instruction, from its selector parameter (R119, R235). -/
def customRow (sel : Selector) : TableRow :=
  ⟨0xFE00707F, rWord sel.funct7 0 0 sel.funct3 0 0x2b⟩

/-- The row of R112 an instruction belongs to. -/
def Instr.row (cfg : Config) : Instr → TableRow
  | .add _ _ _ => ⟨0xFE00707F, 0x00000033⟩
  | .sub _ _ _ => ⟨0xFE00707F, 0x40000033⟩
  | .mul _ _ _ => ⟨0xFE00707F, 0x02000033⟩
  | .sll _ _ _ => ⟨0xFE00707F, 0x00001033⟩
  | .mulh _ _ _ => ⟨0xFE00707F, 0x02001033⟩
  | .slt _ _ _ => ⟨0xFE00707F, 0x00002033⟩
  | .xor _ _ _ => ⟨0xFE00707F, 0x00004033⟩
  | .div _ _ _ => ⟨0xFE00707F, 0x02004033⟩
  | .srl _ _ _ => ⟨0xFE00707F, 0x00005033⟩
  | .sra _ _ _ => ⟨0xFE00707F, 0x40005033⟩
  | .or _ _ _ => ⟨0xFE00707F, 0x00006033⟩
  | .rem _ _ _ => ⟨0xFE00707F, 0x02006033⟩
  | .and _ _ _ => ⟨0xFE00707F, 0x00007033⟩
  | .addi _ _ _ => ⟨0x0000707F, 0x00000013⟩
  | .slli _ _ _ => ⟨0x0000707F, 0x00001013⟩
  | .slti _ _ _ => ⟨0x0000707F, 0x00002013⟩
  | .xori _ _ _ => ⟨0x0000707F, 0x00004013⟩
  | .srli _ _ _ => ⟨0xFE00707F, 0x00005013⟩
  | .srai _ _ _ => ⟨0xFE00707F, 0x40005013⟩
  | .ori _ _ _ => ⟨0x0000707F, 0x00006013⟩
  | .andi _ _ _ => ⟨0x0000707F, 0x00007013⟩
  | .lb _ _ _ => ⟨0x0000707F, 0x00000003⟩
  | .lh _ _ _ => ⟨0x0000707F, 0x00001003⟩
  | .lw _ _ _ => ⟨0x0000707F, 0x00002003⟩
  | .sb _ _ _ _ => ⟨0x0000707F, 0x00000023⟩
  | .sh _ _ _ _ => ⟨0x0000707F, 0x00001023⟩
  | .sw _ _ _ _ => ⟨0x0000707F, 0x00002023⟩
  | .beq _ _ _ _ => ⟨0x0000707F, 0x00000063⟩
  | .bne _ _ _ _ => ⟨0x0000707F, 0x00001063⟩
  | .jal _ _ => ⟨0x0000007F, 0x0000006F⟩
  | .lui _ _ => ⟨0x0000007F, 0x00000037⟩
  | .mac _ _ _ => customRow cfg.selMac
  | .acc _ _ _ => customRow cfg.selAcc
  | .gep _ _ _ => customRow cfg.selGep
  | .ecall _ _ _ _ => ⟨0x0000007F, 0x00000073⟩

end Sys2Proof
end

