-- ==== Sys2Proof/Machine/State.lean ====
section
/-!
DEFINITION. The whole state of the block (10_state.md R30, R36, R42, R43, R44; 20_memory.md R60) as plain data, its reset
value (R46, R290), and why a step can stop.
-/

namespace Sys2Proof.Machine

/-- The memory `mem` as its non-zero bytes by rising address; an unlisted byte is 0 (R60: "zero-initialized"). -/
abbrev Memory := List Host.Cell

/-- The canonical form of memory: equal memories are equal lists. -/
abbrev Memory.wf (m : Memory) : Prop := CanonicalCells m

/-- The four fatal kinds and no other (60_exceptions.md R260, R261). -/
inductive FatalKind where
  | invalidOpcode
  | invalidInstruction
  | invalidEcall
  | outOfBoundsMemoryAccess
deriving DecidableEq, Repr

/-- The run status (R42). -/
inductive Status where
  | running
  | exited
  | fatal (kind : FatalKind) (info : Word)
deriving DecidableEq, Repr

/-- A console event (00_scope.md R19). -/
inductive Event where
  | printInt (n : Int)
  | printString (bytes : List Byte)
  | printChar (c : Byte)
  | exitMessage
  | diagnostic (kind : FatalKind) (info : Word)
deriving DecidableEq, Repr

/-- The state. `cfg` holds the open parameters of the hardware (R7), which no step changes; it is the model's own field
(notes/assumptions/1.md). -/
structure State where
  /-- The open parameters (R7). -/
  cfg : Config
  /-- The 32 general registers (R30). -/
  regs : Vector Word 32
  /-- The program counter (R36). -/
  pc : Word
  /-- The memory (R60). -/
  mem : Memory
  /-- The run status (R42). -/
  status : Status
  /-- The console trace, oldest event first (R43). -/
  out : List Event
deriving DecidableEq, Repr

/-- Why the machine stops without a next state. The fatal halts of R260 are none of these: a raise is a next state whose
`status` is `fatal` (R262, notes/assumptions/3.md). -/
inductive Fault where
  /-- Raised by `step` alone, when `status` is not `running`: no step is defined there (R40, R42). Safe: nothing is
  claimed of a step the hardware does not take. -/
  | notRunning
deriving DecidableEq, Repr

/-- Why the model gives an instruction no meaning. -/
inductive Refusal where
  /-- Raised by an arm of `exec` whose instruction has no meaning yet; no arm is one. Safe. -/
  | notModelled (mnemonic : String)
deriving DecidableEq, Repr

/-- What an instruction or a step answers. -/
abbrev Result := Host.Outcome State Fault Refusal

/-- Reset (R290): the creation of the state from the parameters, every piece at the value of R46. -/
def State.resetWith (cfg : Config) : State where
  cfg := cfg
  regs := Vector.replicate 32 0
  pc := cfg.resetPc
  mem := cfg.initMem
  status := .running
  out := []

/-- The machine right after reset with the default parameters (R7, R46; notes/assumptions/2.md). -/
def State.reset : State := State.resetWith Config.specDefault

end Sys2Proof.Machine
end

