-- ==== Sys2Proof/Machine/Ops.lean ====
section
/-!
DEFINITION. The named operations over registers, pc, memory, trace and status, and the fatal halt, which is this
hardware's one response to every error (60_exceptions.md R262). There is no return from it (R266, R284).
-/

namespace Sys2Proof.Machine

/-! ### Memory (20_memory.md) -/

/-- `mem[a]`: an unlisted byte is 0 (R46, R60). -/
def Memory.read : Memory → Nat → Byte
  | [], _ => 0
  | (k, v) :: rest, a => if k = a then v else Memory.read rest a

/-- `mem[a] <- b`, keeping the canonical form: writing 0 removes the cell. -/
def Memory.write : Memory → Nat → Byte → Memory
  | [], a, b => if b = 0 then [] else [(a, b)]
  | (k, v) :: rest, a, b =>
    if a < k then (if b = 0 then (k, v) :: rest else (a, b) :: (k, v) :: rest)
    else if k = a then (if b = 0 then rest else (a, b) :: rest)
    else (k, v) :: Memory.write rest a b

/-- The `8n` bits read little-endian from bytes `a` to `a+n-1`, zeros above (R62, R64); `n` is at most 4. -/
def Memory.readBytes (m : Memory) (a : Nat) : Nat → Word
  | 0 => 0
  | n + 1 => Memory.readBytes m a n ||| ((m.read (a + n)).setWidth 32 <<< (8 * n))

/-- `mem[a+k] <- v[8k+7:8k]` for k = 0 .. n-1 (R65); `n` is at most 4. -/
def Memory.writeBytes (m : Memory) (a : Nat) (v : Word) : Nat → Memory
  | 0 => m
  | n + 1 => (Memory.writeBytes m a v n).write (a + n) (byteOf v n)

/-- The byte of the state's memory at an address. -/
def State.readByte (s : State) (a : Nat) : Byte := s.mem.read a

/-- The bounds condition `u(addr) + n ≤ MEM_SIZE`, on unbounded integers (R63). -/
def State.inBounds (s : State) (addr : Word) (w : Width) : Bool :=
  decide (addr.toNat + w.bytes ≤ s.cfg.memSize)

/-- `MemRead(addr, n)` (R64), the bits zero-extended to a word; `none` where it raises. -/
def State.memRead (s : State) (addr : Word) (w : Width) : Option Word :=
  if s.inBounds addr w then some (s.mem.readBytes addr.toNat w.bytes) else none

/-- `MemWrite(addr, n, v)` (R65); `none` where it raises, with no byte moved. -/
def State.memWrite (s : State) (addr : Word) (w : Width) (v : Word) : Option State :=
  if s.inBounds addr w then some { s with mem := s.mem.writeBytes addr.toNat v w.bytes } else none

/-! ### Registers and pc (10_state.md) -/

/-- Whether register `i` is the hard-wired zero: register 0 under `X0_HARDWIRED` (R31, R32). -/
def State.isHardZero (s : State) (i : Reg) : Bool := s.cfg.x0Hardwired && i == 0

/-- `x[i]` (R31). -/
def State.readReg (s : State) (i : Reg) : Word :=
  if s.isHardZero i then 0 else s.regs[i.toNat]'i.isLt

/-- `x[i] <- v` (R32); a write to the hard-wired register is discarded. -/
def State.writeReg (s : State) (i : Reg) (v : Word) : State :=
  { s with regs := if s.isHardZero i then s.regs else s.regs.set i.toNat v i.isLt }

/-- `pc <- t` (R17). -/
def State.setPc (s : State) (t : Word) : State := { s with pc := t }

/-- The default `pc <- pc + 4`, modulo 2^32 (R17, R37). -/
def State.advancePc (s : State) : State := s.setPc (s.pc + 4)

/-- The write-back of one value to `x[rd]` and the default advance of the pc (R33, R34, R37). -/
def State.writeBack (s : State) (rd : Reg) (v : Word) : State := (s.writeReg rd v).advancePc

/-! ### Trace, status and halts -/

/-- `emit e` (R19, R43). -/
def State.emit (s : State) (e : Event) : State := { s with out := s.out ++ [e] }

/-- `raise K(info)`, the fatal halt: the trace and the status change and nothing else (R16, R262). -/
def State.raise (s : State) (kind : FatalKind) (info : Word) : State :=
  { s with out := s.out ++ [.diagnostic kind info], status := .fatal kind info }

/-- `halt Exited` (R18, R250). -/
def State.haltExited (s : State) : State := { s with status := .exited }

/-- The process status on the status output: none while running, 0 after `Exited`, `FAIL_STATUS` after a fatal halt
(R42, R262). -/
def State.processStatus (s : State) : Option Int :=
  match s.status with
  | .running => none
  | .exited => some 0
  | .fatal _ _ => some s.cfg.failStatus

/-! ### Fetch, and the raise of a rejected word -/

/-- The instruction fetch `MemRead(pc, 4)` (R40, R67). -/
def State.fetch (s : State) : Option Word := s.memRead s.pc .word

/-- The raise of a word the decoder or the selection rejects, with `info = raw` (R120, R121, R260). -/
def State.raiseRejected (s : State) : Rejection → State
  | .invalidOpcode raw => s.raise .invalidOpcode raw
  | .invalidInstruction raw => s.raise .invalidInstruction raw

end Sys2Proof.Machine
end

