-- ==== Sys2Proof/Machine/Operands.lean ====
section
/-!
DEFINITION. The operand forms: the offset assembly (40_sign_extension_and_offset_assembly.md R143 to R146), shift amounts and
effective addresses (30_encoding.md R110). The immediate of I-type arithmetic and of loads comes sign-extended from the
decoder (R109, R142).
-/

namespace Sys2Proof.Machine

/-! ### Offsets -/

/-- `branch_offset(imm5, imm7)` (R143): o[12] = imm7[6], o[11] = imm5[0], o[10:5] = imm7[5:0], o[4:1] = imm5[4:1],
o[0] = 0, sign-extended from 13 bits. -/
def branchOffset (imm5 : BitVec 5) (imm7 : BitVec 7) : Word :=
  sext (imm7.extractLsb' 6 1 ++ imm5.extractLsb' 0 1 ++ imm7.extractLsb' 0 6 ++ imm5.extractLsb' 1 4 ++ 0#1)

/-- `jump_offset(imm20)` (R144, with 90_conflicts.md C1): o[20] = imm20[19], o[19:12] = imm20[7:0], o[11] = imm20[8],
o[10:1] = imm20[18:9], o[0] = 0, sign-extended from 21 bits. -/
def jumpOffset (imm20 : BitVec 20) : Word :=
  sext (imm20.extractLsb' 19 1 ++ imm20.extractLsb' 0 8 ++ imm20.extractLsb' 8 1 ++ imm20.extractLsb' 9 10 ++ 0#1)

/-- `store_offset(imm5, imm7)` (R145): `sext_12({imm7, imm5})`. -/
def storeOffset (imm5 : BitVec 5) (imm7 : BitVec 7) : Word := sext (imm7 ++ imm5)

/-- The value of `lui`, `{imm20, 0x000}` (R230). -/
def upperImm (imm20 : BitVec 20) : Word := imm20 ++ 0#12

/-! ### The forward encodings of R146 -/

/-- The branch fragments (imm5, imm7) of an offset: imm5 = {o[4:1], o[11]}, imm7 = {o[12], o[10:5]}. -/
def branchFragments (o : Word) : BitVec 5 × BitVec 7 :=
  (o.extractLsb' 1 4 ++ o.extractLsb' 11 1, o.extractLsb' 12 1 ++ o.extractLsb' 5 6)

/-- The jump fragment of an offset: imm20 = {o[20], o[10:1], o[11], o[19:12]}. -/
def jumpFragment (o : Word) : BitVec 20 :=
  o.extractLsb' 20 1 ++ o.extractLsb' 1 10 ++ o.extractLsb' 11 1 ++ o.extractLsb' 12 8

/-- The store fragments (imm5, imm7) of an offset: imm5 = o[4:0], imm7 = o[11:5]. -/
def storeFragments (o : Word) : BitVec 5 × BitVec 7 :=
  (o.extractLsb' 0 5, o.extractLsb' 5 7)

/-! ### Shift amounts -/

/-- The shift amount of `sll`, `srl` and `sra`: `x[rs2][4:0]` (R160). -/
def shamtReg (v : Word) : BitVec 5 := v.extractLsb' 0 5

/-- The shift amount of `slli`: `imm12[4:0]`, the immediate masked to 5 bits, whatever its upper bits hold (R115, R180). -/
def shamtImm (imm : Word) : BitVec 5 := immLow imm

/-! ### Effective addresses -/

/-- `ea = x[rs1] + imm`, with the decoder's `imm = sext_12(imm12)` (R109, R195). -/
def State.loadAddress (s : State) (rs1 : Reg) (imm : Word) : Word := s.readReg rs1 + imm

/-- `ea = x[rs1] + store_offset(imm5, imm7)` (R205). -/
def State.storeAddress (s : State) (rs1 : Reg) (imm5 : BitVec 5) (imm7 : BitVec 7) : Word :=
  s.readReg rs1 + storeOffset imm5 imm7

/-! ### The string operand of service 4 (48_ecall.md R248) -/

/-- The bytes from address `p` up to the first zero byte, at most `fuel` of them. -/
def Memory.stringFrom (m : Memory) : (fuel p : Nat) → List Byte
  | 0, _ => []
  | fuel + 1, p => if m.read p = 0 then [] else m.read p :: Memory.stringFrom m fuel (p + 1)

/-- `cstring(a)`: the scan runs while the address is below `MEM_SIZE` and the byte is not zero (R248). -/
def State.cstring (s : State) (a : Word) : List Byte :=
  s.mem.stringFrom (s.cfg.memSize - a.toNat) a.toNat

end Sys2Proof.Machine
end

