-- ==== Sys2Proof/Machine/Flags.lean ====
section
/-!
DEFINITION. The hardware has no flags, condition codes or predicates (10_state.md R44), so nothing is computed into one.
What takes their place are these conditions, compared directly on register values by the branches and by `slt`, `slti`.
-/

namespace Sys2Proof.Machine

/-- `a == b` on all 32 bits, the condition of `beq` (R12, R215). -/
def equalCond (a b : Word) : Bool := a == b

/-- `a <s b`, the comparison of the exact signed integers (R12, R166). -/
def lessSignedCond (a b : Word) : Bool := decide (a.toInt < b.toInt)

/-- A condition as a register value: `0x00000001` or `0x00000000` (R166). -/
def condWord (c : Bool) : Word := if c then 1 else 0

end Sys2Proof.Machine
end

