-- ==== Sys2Proof/Machine/Control.lean ====
section
/-!
DEFINITION. Control transfer: the branches, opcode `0x63`, and `jal`, opcode `0x6F` (45_branches_and_jump.md). A target is
checked for neither alignment nor bounds: the next fetch judges it (R38, R216).
-/

namespace Sys2Proof.Machine

/-- The common form of a branch: `pc <- pc + branch_offset` if taken, else `pc + 4` (R37, R215). -/
def execBranch (taken : Bool) (imm5 : BitVec 5) (imm7 : BitVec 7) (s : State) : Result :=
  .next (if taken then s.setPc (s.pc + branchOffset imm5 imm7) else s.advancePc)

/-- R216. -/
def execBeq (rs1 rs2 : Reg) (imm5 : BitVec 5) (imm7 : BitVec 7) (s : State) : Result :=
  execBranch (equalCond (s.readReg rs1) (s.readReg rs2)) imm5 imm7 s
/-- R217. -/
def execBne (rs1 rs2 : Reg) (imm5 : BitVec 5) (imm7 : BitVec 7) (s : State) : Result :=
  execBranch (!equalCond (s.readReg rs1) (s.readReg rs2)) imm5 imm7 s
/-- R218: the link and the target are both sums from the address of the `jal` itself. -/
def execJal (rd : Reg) (imm20 : BitVec 20) (s : State) : Result :=
  .next ((s.writeReg rd (s.pc + 4)).setPc (s.pc + jumpOffset imm20))

end Sys2Proof.Machine
end

