-- ==== Sys2Proof/Machine/Alu.lean ====
section
/-!
DEFINITION. The integer ALU (41_r_type_alu.md R161 to R174, 47_custom.md R236 to R238): one function per operation on
32-bit values, shared by the register and the immediate forms (42_i_type_alu.md: "same ops with an immediate operand").
-/

namespace Sys2Proof.Machine

/-- R161, R181: modulo 2^32. -/
def aluAdd (a b : Word) : Word := a + b

/-- R162: modulo 2^32. -/
def aluSub (a b : Word) : Word := a - b

/-- The 64-bit two's-complement product of two signed words (R163, R165), which always fits. -/
def productSigned (a b : Word) : BitVec 64 := BitVec.ofInt 64 (a.toInt * b.toInt)

/-- R163: bits 31:0 of the product. -/
def aluMul (a b : Word) : Word := (productSigned a b).extractLsb' 0 32

/-- R165: bits 63:32 of the product. -/
def aluMulh (a b : Word) : Word := (productSigned a b).extractLsb' 32 32

/-- R166, R183. -/
def aluSlt (a b : Word) : Word := condWord (lessSignedCond a b)

/-- R167, R184. -/
def aluXor (a b : Word) : Word := a ^^^ b

/-- R171, R187. -/
def aluOr (a b : Word) : Word := a ||| b

/-- R173, R188. -/
def aluAnd (a b : Word) : Word := a &&& b

/-- R168: rounded toward zero; all ones for a zero divisor, the dividend for -2^31 / -1 (92_eei_decisions.md D12). -/
def aluDiv (a b : Word) : Word :=
  if b.toInt = 0 then 0xFFFFFFFF
  else if a.toInt = -2 ^ 31 ∧ b.toInt = -1 then 0x80000000
  else BitVec.ofInt 32 (a.toInt.tdiv b.toInt)

/-- R172: the sign of the dividend; the dividend for a zero divisor, 0 for -2^31 rem -1 (92_eei_decisions.md D12). -/
def aluRem (a b : Word) : Word :=
  if b.toInt = 0 then a
  else if a.toInt = -2 ^ 31 ∧ b.toInt = -1 then 0
  else BitVec.ofInt 32 (a.toInt - b.toInt * a.toInt.tdiv b.toInt)

/-- R164, R182: shift left, zeros enter at bit 0. -/
def aluSll (a : Word) (sh : BitVec 5) : Word := a <<< sh.toNat

/-- R169, R185: shift right, zeros enter at bit 31. -/
def aluSrl (a : Word) (sh : BitVec 5) : Word := a >>> sh.toNat

/-- R170, R186: shift right, copies of bit 31 enter. -/
def aluSra (a : Word) (sh : BitVec 5) : Word := a.sshiftRight sh.toNat

/-- R236: the old `x[rd]` plus the low word of the product. -/
def aluMac (old a b : Word) : Word := old + aluMul a b

/-- R237. -/
def aluAcc (old a b : Word) : Word := old + a + b

/-- R238: base plus index times 16, the shift on 32 bits. -/
def aluGep (a b : Word) : Word := a + (b <<< 4)

end Sys2Proof.Machine
end

