-- ==== Sys2Proof/Machine/RType.lean ====
section
/-!
DEFINITION. R-type arithmetic, opcode `0x33` (41_r_type_alu.md): both sources are read before the write (10_state.md R33).
-/

namespace Sys2Proof.Machine

/-- The common form: `x[rd] <- f(x[rs1], x[rs2])`, pc + 4 (R34, R35, R37). -/
def execRegReg (f : Word → Word → Word) (rd rs1 rs2 : Reg) (s : State) : Result :=
  .next (s.writeBack rd (f (s.readReg rs1) (s.readReg rs2)))

/-- R161. -/
def execAdd (rd rs1 rs2 : Reg) (s : State) : Result := execRegReg aluAdd rd rs1 rs2 s
/-- R162. -/
def execSub (rd rs1 rs2 : Reg) (s : State) : Result := execRegReg aluSub rd rs1 rs2 s
/-- R163. -/
def execMul (rd rs1 rs2 : Reg) (s : State) : Result := execRegReg aluMul rd rs1 rs2 s
/-- R164. -/
def execSll (rd rs1 rs2 : Reg) (s : State) : Result := execRegReg (fun a b => aluSll a (shamtReg b)) rd rs1 rs2 s
/-- R165. -/
def execMulh (rd rs1 rs2 : Reg) (s : State) : Result := execRegReg aluMulh rd rs1 rs2 s
/-- R166. -/
def execSlt (rd rs1 rs2 : Reg) (s : State) : Result := execRegReg aluSlt rd rs1 rs2 s
/-- R167. -/
def execXor (rd rs1 rs2 : Reg) (s : State) : Result := execRegReg aluXor rd rs1 rs2 s
/-- R168. -/
def execDiv (rd rs1 rs2 : Reg) (s : State) : Result := execRegReg aluDiv rd rs1 rs2 s
/-- R169. -/
def execSrl (rd rs1 rs2 : Reg) (s : State) : Result := execRegReg (fun a b => aluSrl a (shamtReg b)) rd rs1 rs2 s
/-- R170. -/
def execSra (rd rs1 rs2 : Reg) (s : State) : Result := execRegReg (fun a b => aluSra a (shamtReg b)) rd rs1 rs2 s
/-- R171. -/
def execOr (rd rs1 rs2 : Reg) (s : State) : Result := execRegReg aluOr rd rs1 rs2 s
/-- R172. -/
def execRem (rd rs1 rs2 : Reg) (s : State) : Result := execRegReg aluRem rd rs1 rs2 s
/-- R173. -/
def execAnd (rd rs1 rs2 : Reg) (s : State) : Result := execRegReg aluAnd rd rs1 rs2 s

end Sys2Proof.Machine
end

