-- ==== Sys2Proof/Machine/Custom.lean ====
section
/-!
DEFINITION. The custom fused instructions, opcode `0x2b` (47_custom.md). `mac` and `acc` read the old `x[rd]` with their
other sources, before the write (10_state.md R33, R35); `gep` does not read it (90_conflicts.md C5).
-/

namespace Sys2Proof.Machine

/-- The common form of `mac` and `acc`: `x[rd] <- f(x[rd], x[rs1], x[rs2])`, pc + 4. -/
def execAccumulate (f : Word → Word → Word → Word) (rd rs1 rs2 : Reg) (s : State) : Result :=
  .next (s.writeBack rd (f (s.readReg rd) (s.readReg rs1) (s.readReg rs2)))

/-- R236. -/
def execMac (rd rs1 rs2 : Reg) (s : State) : Result := execAccumulate aluMac rd rs1 rs2 s
/-- R237. -/
def execAcc (rd rs1 rs2 : Reg) (s : State) : Result := execAccumulate aluAcc rd rs1 rs2 s
/-- R238. -/
def execGep (rd rs1 rs2 : Reg) (s : State) : Result := execRegReg aluGep rd rs1 rs2 s

end Sys2Proof.Machine
end

