-- ==== Sys2Proof/Machine/IType.lean ====
section
/-!
DEFINITION. I-type arithmetic, opcode `0x13` (42_i_type_alu.md). `imm` is formed by the decoder (30_encoding.md R109).
-/

namespace Sys2Proof.Machine

/-- The common form: `x[rd] <- f(x[rs1])` for the operation `f` with its immediate in place, pc + 4 (R34, R35, R37). -/
def execRegImm (f : Word → Word) (rd rs1 : Reg) (s : State) : Result :=
  .next (s.writeBack rd (f (s.readReg rs1)))

/-- R181. -/
def execAddi (rd rs1 : Reg) (imm : Word) (s : State) : Result :=
  execRegImm (fun a => aluAdd a imm) rd rs1 s
/-- R182: `imm12[11:5]` plays no part. -/
def execSlli (rd rs1 : Reg) (imm : Word) (s : State) : Result :=
  execRegImm (fun a => aluSll a (shamtImm imm)) rd rs1 s
/-- R183. -/
def execSlti (rd rs1 : Reg) (imm : Word) (s : State) : Result :=
  execRegImm (fun a => aluSlt a imm) rd rs1 s
/-- R184. -/
def execXori (rd rs1 : Reg) (imm : Word) (s : State) : Result :=
  execRegImm (fun a => aluXor a imm) rd rs1 s
/-- R185. -/
def execSrli (rd rs1 : Reg) (shamt : BitVec 5) (s : State) : Result :=
  execRegImm (fun a => aluSrl a shamt) rd rs1 s
/-- R186. -/
def execSrai (rd rs1 : Reg) (shamt : BitVec 5) (s : State) : Result :=
  execRegImm (fun a => aluSra a shamt) rd rs1 s
/-- R187. -/
def execOri (rd rs1 : Reg) (imm : Word) (s : State) : Result :=
  execRegImm (fun a => aluOr a imm) rd rs1 s
/-- R188. -/
def execAndi (rd rs1 : Reg) (imm : Word) (s : State) : Result :=
  execRegImm (fun a => aluAnd a imm) rd rs1 s

end Sys2Proof.Machine
end

