-- ==== Sys2Proof/Machine/Loads.lean ====
section
/-!
DEFINITION. Loads, opcode `0x03` (43_loads.md).
-/

namespace Sys2Proof.Machine

/-- The common form: `x[rd] <- sext_8n(MemRead(ea, n))`, pc + 4; out of bounds, the raise with `info = ea` and nothing
written (R66, R195, R264). -/
def execLoad (w : Width) (rd rs1 : Reg) (imm : Word) (s : State) : Result :=
  match s.memRead (s.loadAddress rs1 imm) w with
  | none => .next (s.raise .outOfBoundsMemoryAccess (s.loadAddress rs1 imm))
  | some v => .next (s.writeBack rd (signExtend v (8 * w.bytes)))

/-- R196. -/
def execLb (rd rs1 : Reg) (imm : Word) (s : State) : Result := execLoad .byte rd rs1 imm s
/-- R197. -/
def execLh (rd rs1 : Reg) (imm : Word) (s : State) : Result := execLoad .half rd rs1 imm s
/-- R198. -/
def execLw (rd rs1 : Reg) (imm : Word) (s : State) : Result := execLoad .word rd rs1 imm s

end Sys2Proof.Machine
end

