-- ==== Sys2Proof/Machine/Stores.lean ====
section
/-!
DEFINITION. Stores, opcode `0x23` (44_stores.md).
-/

namespace Sys2Proof.Machine

/-- The common form: `MemWrite(ea, n, x[rs2])`, pc + 4; out of bounds, the raise with `info = ea` and no byte written
(R65, R205, R264). -/
def execStore (w : Width) (rs1 rs2 : Reg) (imm5 : BitVec 5) (imm7 : BitVec 7) (s : State) : Result :=
  match s.memWrite (s.storeAddress rs1 imm5 imm7) w (s.readReg rs2) with
  | none => .next (s.raise .outOfBoundsMemoryAccess (s.storeAddress rs1 imm5 imm7))
  | some t => .next t.advancePc

/-- R206. -/
def execSb (rs1 rs2 : Reg) (imm5 : BitVec 5) (imm7 : BitVec 7) (s : State) : Result := execStore .byte rs1 rs2 imm5 imm7 s
/-- R207. -/
def execSh (rs1 rs2 : Reg) (imm5 : BitVec 5) (imm7 : BitVec 7) (s : State) : Result := execStore .half rs1 rs2 imm5 imm7 s
/-- R208. -/
def execSw (rs1 rs2 : Reg) (imm5 : BitVec 5) (imm7 : BitVec 7) (s : State) : Result := execStore .word rs1 rs2 imm5 imm7 s

end Sys2Proof.Machine
end

