-- ==== Sys2Proof/Machine/System.lean ====
section
/-!
DEFINITION. The environment call, opcode `0x73` (48_ecall.md): an ordinary instruction whose effect is an event, not a
trap (R252, R266).
-/

namespace Sys2Proof.Machine

/-- The register of the service number, `x[10]` (R245). -/
def serviceReg : Reg := 10

/-- The register of the argument, `x[11]` (R245). -/
def argumentReg : Reg := 11

/-- R246: the whole value of `x[10]` picks the service. The four fields of the word play no part (R118, R245). -/
def execEcall (_rd _rs1 : Reg) (_funct3 : BitVec 3) (_imm12 : BitVec 12) (s : State) : Result :=
  let n := s.readReg serviceReg
  let a := s.readReg argumentReg
  if n = 1 then .next (s.emit (.printInt a.toInt)).advancePc
  else if n = 4 then .next (s.emit (.printString (s.cstring a))).advancePc
  else if n = 10 then .next (s.emit .exitMessage).haltExited
  else if n = 11 then .next (s.emit (.printChar (a.extractLsb' 0 8))).advancePc
  else .next (s.raise .invalidEcall n)

end Sys2Proof.Machine
end

