-- ==== Sys2Proof/Machine/Upper.lean ====
section
/-!
DEFINITION. Upper immediate, opcode `0x37` (46_upper_immediate.md).
-/

namespace Sys2Proof.Machine

/-- R230. -/
def execLui (rd : Reg) (imm20 : BitVec 20) (s : State) : Result := .next (s.writeBack rd (upperImm imm20))

end Sys2Proof.Machine
end

