-- ==== Sys2Proof/Machine/Step.lean ====
section
/-!
DEFINITION. One step (10_state.md R40), and the placing of an instruction where the next step fetches it.
-/

namespace Sys2Proof.Machine

/-- One step: fetch, decode, select, execute, in that order, stopping at the first raise (R40, R264). The pc is replaced
by the instruction's own meaning (R37). No step is taken unless `status` is `running` (R42). -/
def step (s : State) : Host.Outcome State Fault Refusal :=
  match s.status with
  | .running =>
    match s.fetch with
    | none => .next (s.raise .outOfBoundsMemoryAccess s.pc)
    | some raw =>
      match decode s.cfg raw with
      | .error why => .next (s.raiseRejected why)
      | .ok i => exec i s
  | .exited => .fault .notRunning
  | .fatal _ _ => .fault .notRunning

/-- The state with an instruction's word stored at the pc, as the loader would (R291; notes/assumptions/6.md). -/
def State.withFetchWord (s : State) (nbits w : Nat) : State :=
  { s with mem := s.mem.writeBytes s.pc.toNat (tableWord nbits w) 4 }

end Sys2Proof.Machine
end

