-- ==== Sys2Proof/Machine/Pseudo.lean ====
section
/-!
DEFINITION. The pseudo-instructions of 30_encoding.md R131 that this hardware can run, as the instructions they expand to.
They are words of core instructions and have no row of their own in the opcode table. Those that name `x0` as a zero are
right only while `x[0]` is 0 (70_reset_and_hazards.md R301).
-/

namespace Sys2Proof.Machine

/-- The pseudo-instructions of R131's table whose expansion is in R112. -/
inductive Pseudo where
  | nop
  | mv (rd rs : Reg)
  | not (rd rs : Reg)
  /-- `li rd, imm` with a 12-bit immediate. -/
  | li12 (rd : Reg) (imm12 : BitVec 12)
  /-- `li rd, imm` with a 32-bit immediate. -/
  | li32 (rd : Reg) (imm : Word)
  | neg (rd rs : Reg)
  | beqz (rs : Reg) (offset : Word)
  | bnez (rs : Reg) (offset : Word)
  | j (offset : Word)
  /-- `jal off`, the link in `x1`. -/
  | jalLink (offset : Word)
  | sltz (rd rs : Reg)
  | sgtz (rd rs : Reg)
deriving DecidableEq, Repr

/-- The upper field of a 32-bit constant, `(imm + 0x800)[31:12]` (R131, R230). -/
def upperPart (imm : Word) : BitVec 20 := (imm + 0x800).extractLsb' 12 20

/-- The lower field of a 32-bit constant, its low 12 bits, which `addi` sign-extends (R131, R230). -/
def lowerPart (imm : Word) : BitVec 12 := imm.extractLsb' 0 12

/-- The expansion of a pseudo-instruction (R131), an offset in the fragments of R146. -/
def Pseudo.expand : Pseudo → List Instr
  | .nop => [.addi 0 0 0]
  | .mv rd rs => [.addi rd rs 0]
  | .not rd rs => [.xori rd rs (-1)]
  | .li12 rd imm12 => [.addi rd 0 (sext imm12)]
  | .li32 rd imm => [.lui rd (upperPart imm), .addi rd rd (sext (lowerPart imm))]
  | .neg rd rs => [.sub rd 0 rs]
  | .beqz rs offset => [.beq rs 0 (branchFragments offset).1 (branchFragments offset).2]
  | .bnez rs offset => [.bne rs 0 (branchFragments offset).1 (branchFragments offset).2]
  | .j offset => [.jal 0 (jumpFragment offset)]
  | .jalLink offset => [.jal 1 (jumpFragment offset)]
  | .sltz rd rs => [.slt rd rs 0]
  | .sgtz rd rs => [.slt rd 0 rs]

end Sys2Proof.Machine
end

