-- ==== Sys2Proof/Safety.lean ====
section
/-!
DEFINITION. The terms the claims use: what memory and registers look like from outside, what an instruction names as
destination and sources, what the spec says of every reachable state, and the shapes of the instruction rules.
-/

namespace Sys2Proof.Machine

/-! ### Frames -/

/-- Every byte of memory reads alike. -/
def SameMemory (s t : State) : Prop := ∀ a, t.readByte a = s.readByte a

/-- Every byte outside `lo` .. `lo+n-1` reads alike. -/
def SameMemoryOutside (lo n : Nat) (s t : State) : Prop := ∀ a, a < lo ∨ lo + n ≤ a → t.readByte a = s.readByte a

/-- Every register reads alike. -/
def SameRegs (s t : State) : Prop := ∀ r, t.readReg r = s.readReg r

/-- Every register but `rd` reads alike. -/
def SameRegsExcept (rd : Reg) (s t : State) : Prop := ∀ r, r ≠ rd → t.readReg r = s.readReg r

/-- The run goes on as it was: status, trace and parameters are unchanged. -/
def SameRun (s t : State) : Prop := t.status = s.status ∧ t.out = s.out ∧ t.cfg = s.cfg

/-- What register `rd` reads after a write of `v` to it: `v`, or 0 for register 0 under `X0_HARDWIRED` (R31, R32). -/
def written (s : State) (rd : Reg) (v : Word) : Word := if s.cfg.x0Hardwired = true ∧ rd = 0 then 0 else v

/-- `t` is `s` after the write of `v` to `x[rd]`, the pc at `pc'`, and nothing else changed. -/
def RegResult (s t : State) (rd : Reg) (v pc' : Word) : Prop :=
  t.readReg rd = written s rd v ∧ SameRegsExcept rd s t ∧ t.pc = pc' ∧ SameMemory s t ∧ SameRun s t

/-- `t` is `s` with the pc at `pc'` and nothing else changed. -/
def PcResult (s t : State) (pc' : Word) : Prop := SameRegs s t ∧ t.pc = pc' ∧ SameMemory s t ∧ SameRun s t

/-- `t` is `s` after the store of the low `w.bytes` bytes of `v` at `ea`, the pc advanced by 4, and nothing else changed:
each stored byte reads as its byte of `v`, every other byte as before (R62, R65). -/
def StoreResult (s t : State) (w : Width) (ea v : Word) : Prop :=
  SameRegs s t ∧ t.pc = s.pc + 4
    ∧ (∀ k, k < w.bytes → t.readByte (ea.toNat + k) = v.extractLsb' (8 * k) 8)
    ∧ SameMemoryOutside ea.toNat w.bytes s t ∧ SameRun s t

/-- `t` is `s` after the fatal halt of kind `kind`: the diagnostic and the status, and nothing else (R262). -/
def FatalHalt (s t : State) (kind : FatalKind) (info : Word) : Prop :=
  t.status = .fatal kind info ∧ t.out = s.out ++ [.diagnostic kind info]
    ∧ SameRegs s t ∧ t.pc = s.pc ∧ SameMemory s t ∧ t.cfg = s.cfg

/-- `t` is `s` after an `ecall` service that emits `e` and goes on: the pc advanced by 4 and nothing else changed. -/
def EmitResult (s t : State) (e : Event) : Prop :=
  t.out = s.out ++ [e] ∧ t.status = s.status ∧ SameRegs s t ∧ t.pc = s.pc + 4 ∧ SameMemory s t ∧ t.cfg = s.cfg

/-! ### What an instruction names -/

/-- The register an instruction writes, the one its field `rd` names (R32, R34); `ecall` writes none, whatever its `rd`
field holds (R245). -/
def destination : Instr → Option Reg
  | .add rd _ _ | .sub rd _ _ | .mul rd _ _ | .sll rd _ _ | .mulh rd _ _ | .slt rd _ _ | .xor rd _ _ | .div rd _ _
  | .srl rd _ _ | .sra rd _ _ | .or rd _ _ | .rem rd _ _ | .and rd _ _
  | .addi rd _ _ | .slli rd _ _ | .slti rd _ _ | .xori rd _ _ | .srli rd _ _ | .srai rd _ _ | .ori rd _ _ | .andi rd _ _
  | .lb rd _ _ | .lh rd _ _ | .lw rd _ _ | .jal rd _ | .lui rd _
  | .mac rd _ _ | .acc rd _ _ | .gep rd _ _ => some rd
  | .sb _ _ _ _ | .sh _ _ _ _ | .sw _ _ _ _ | .beq _ _ _ _ | .bne _ _ _ _ | .ecall _ _ _ _ => none

/-- The registers an instruction reads (R35). -/
def sources : Instr → List Reg
  | .add _ rs1 rs2 | .sub _ rs1 rs2 | .mul _ rs1 rs2 | .sll _ rs1 rs2 | .mulh _ rs1 rs2 | .slt _ rs1 rs2
  | .xor _ rs1 rs2 | .div _ rs1 rs2 | .srl _ rs1 rs2 | .sra _ rs1 rs2 | .or _ rs1 rs2 | .rem _ rs1 rs2
  | .and _ rs1 rs2 | .gep _ rs1 rs2 => [rs1, rs2]
  | .addi _ rs1 _ | .slli _ rs1 _ | .slti _ rs1 _ | .xori _ rs1 _ | .srli _ rs1 _ | .srai _ rs1 _ | .ori _ rs1 _
  | .andi _ rs1 _ | .lb _ rs1 _ | .lh _ rs1 _ | .lw _ rs1 _ => [rs1]
  | .sb rs1 rs2 _ _ | .sh rs1 rs2 _ _ | .sw rs1 rs2 _ _ | .beq rs1 rs2 _ _ | .bne rs1 rs2 _ _ => [rs1, rs2]
  | .jal _ _ | .lui _ _ => []
  | .mac rd rs1 rs2 | .acc rd rs1 rs2 => [rs1, rs2, rd]
  | .ecall _ _ _ _ => [10, 11]

/-- The address and the width of an instruction's store, if it is one (R67, R205). -/
def storeTarget (s : State) : Instr → Option (Word × Width)
  | .sb rs1 _ imm5 imm7 => some (s.storeAddress rs1 imm5 imm7, .byte)
  | .sh rs1 _ imm5 imm7 => some (s.storeAddress rs1 imm5 imm7, .half)
  | .sw rs1 _ imm5 imm7 => some (s.storeAddress rs1 imm5 imm7, .word)
  | .add _ _ _ | .sub _ _ _ | .mul _ _ _ | .sll _ _ _ | .mulh _ _ _ | .slt _ _ _ | .xor _ _ _ | .div _ _ _
  | .srl _ _ _ | .sra _ _ _ | .or _ _ _ | .rem _ _ _ | .and _ _ _
  | .addi _ _ _ | .slli _ _ _ | .slti _ _ _ | .xori _ _ _ | .srli _ _ _ | .srai _ _ _ | .ori _ _ _ | .andi _ _ _
  | .lb _ _ _ | .lh _ _ _ | .lw _ _ _ | .jal _ _ | .lui _ _ | .mac _ _ _ | .acc _ _ _ | .gep _ _ _
  | .beq _ _ _ _ | .bne _ _ _ _ | .ecall _ _ _ _ => none

/-- The address and the width of an instruction's data access, if it has one: loads and stores only (R67, R195, R205). -/
def dataAccess (s : State) (i : Instr) : Option (Word × Width) :=
  match i with
  | .lb _ rs1 imm => some (s.loadAddress rs1 imm, .byte)
  | .lh _ rs1 imm => some (s.loadAddress rs1 imm, .half)
  | .lw _ rs1 imm => some (s.loadAddress rs1 imm, .word)
  | .sb _ _ _ _ | .sh _ _ _ _ | .sw _ _ _ _ => storeTarget s i
  | .add _ _ _ | .sub _ _ _ | .mul _ _ _ | .sll _ _ _ | .mulh _ _ _ | .slt _ _ _ | .xor _ _ _ | .div _ _ _
  | .srl _ _ _ | .sra _ _ _ | .or _ _ _ | .rem _ _ _ | .and _ _ _
  | .addi _ _ _ | .slli _ _ _ | .slti _ _ _ | .xori _ _ _ | .srli _ _ _ | .srai _ _ _ | .ori _ _ _ | .andi _ _ _
  | .jal _ _ | .lui _ _ | .mac _ _ _ | .acc _ _ _ | .gep _ _ _
  | .beq _ _ _ _ | .bne _ _ _ _ | .ecall _ _ _ _ => none

/-- The pc after an instruction that raises nothing: the table of R37. -/
def nextPc (s : State) : Instr → Word
  | .beq rs1 rs2 imm5 imm7 => if s.readReg rs1 = s.readReg rs2 then s.pc + branchOffset imm5 imm7 else s.pc + 4
  | .bne rs1 rs2 imm5 imm7 => if s.readReg rs1 ≠ s.readReg rs2 then s.pc + branchOffset imm5 imm7 else s.pc + 4
  | .jal _ imm20 => s.pc + jumpOffset imm20
  | .ecall _ _ _ _ => if s.readReg 10 = 10 then s.pc else s.pc + 4
  | .add _ _ _ | .sub _ _ _ | .mul _ _ _ | .sll _ _ _ | .mulh _ _ _ | .slt _ _ _ | .xor _ _ _ | .div _ _ _
  | .srl _ _ _ | .sra _ _ _ | .or _ _ _ | .rem _ _ _ | .and _ _ _
  | .addi _ _ _ | .slli _ _ _ | .slti _ _ _ | .xori _ _ _ | .srli _ _ _ | .srai _ _ _ | .ori _ _ _ | .andi _ _ _
  | .lb _ _ _ | .lh _ _ _ | .lw _ _ _ | .lui _ _ | .mac _ _ _ | .acc _ _ _ | .gep _ _ _
  | .sb _ _ _ _ | .sh _ _ _ _ | .sw _ _ _ _ => s.pc + 4

/-- The instruction is an `ecall`. -/
def IsEcall (i : Instr) : Prop := ∃ rd rs1 funct3 imm12, i = .ecall rd rs1 funct3 imm12

/-- The little-endian word of the four bytes at an address (R62, R100). -/
def wordAt (s : State) (a : Nat) : Word :=
  s.readByte (a + 3) ++ s.readByte (a + 2) ++ s.readByte (a + 1) ++ s.readByte a

/-- `bytes` is the string at address `a`: the non-zero bytes from `a` on, up to the first zero byte or the end of memory
(R248). -/
def IsString (s : State) (a : Nat) (bytes : List Byte) : Prop :=
  (∀ k (h : k < bytes.length), a + k < s.cfg.memSize ∧ bytes[k] ≠ 0 ∧ s.readByte (a + k) = bytes[k])
    ∧ (s.cfg.memSize ≤ a + bytes.length ∨ s.readByte (a + bytes.length) = 0)

/-! ### The nine opcodes and the illegal function codes -/

/-- The nine recognised opcodes (R108). -/
def knownOpcodes : List (BitVec 7) := [0x33, 0x13, 0x03, 0x23, 0x63, 0x37, 0x6F, 0x73, 0x2b]

/-- The thirteen (funct3, funct7) pairs of opcode `0x33` (R113). -/
def arithPairs : List (BitVec 3 × BitVec 7) :=
  [(0, 0x00), (0, 0x20), (0, 0x01), (1, 0x00), (1, 0x01), (2, 0x00), (4, 0x00), (4, 0x01), (5, 0x00), (5, 0x20),
    (6, 0x00), (6, 0x01), (7, 0x00)]

/-- The complete list of R121: a recognised opcode whose selector fields match no row. -/
def IllegalFunction (cfg : Config) (raw : Word) : Prop :=
  let op := raw.extractLsb' 0 7
  let f3 := raw.extractLsb' 12 3
  let f7 := raw.extractLsb' 25 7
  (op = 0x33 ∧ (f3, f7) ∉ arithPairs)
    ∨ (op = 0x13 ∧ (f3 = 3 ∨ (f3 = 5 ∧ f7 ≠ 0x00 ∧ f7 ≠ 0x20)))
    ∨ (op = 0x03 ∧ 3 ≤ f3.toNat)
    ∨ (op = 0x23 ∧ 3 ≤ f3.toNat)
    ∨ (op = 0x63 ∧ 2 ≤ f3.toNat)
    ∨ (op = 0x2b ∧ ⟨f3, f7⟩ ≠ cfg.selMac ∧ ⟨f3, f7⟩ ≠ cfg.selAcc ∧ ⟨f3, f7⟩ ≠ cfg.selGep)

/-! ### What the spec says of every reachable state -/

/-- The values an event may carry (R19). -/
def Event.legal : Event → Prop
  | .printInt n => -2 ^ 31 ≤ n ∧ n ≤ 2 ^ 31 - 1
  | .printString bytes => ∀ b ∈ bytes, b ≠ 0
  | .printChar _ => True
  | .exitMessage => True
  | .diagnostic _ _ => True

/-- The events that end a run (R250, R262). -/
def Event.final : Event → Prop
  | .exitMessage => True
  | .diagnostic _ _ => True
  | .printInt _ => False
  | .printString _ => False
  | .printChar _ => False

/-- The trace tells the status: while running no event has ended the run, an exited run ends in the exit message, a fatal
one in its diagnostic, and in both no earlier event did (R42, R43, R250, R262). -/
def TraceTellsStatus (status : Status) (out : List Event) : Prop :=
  match status with
  | .running => ∀ e ∈ out, ¬ e.final
  | .exited => ∃ before, out = before ++ [.exitMessage] ∧ ∀ e ∈ before, ¬ e.final
  | .fatal kind info => ∃ before, out = before ++ [.diagnostic kind info] ∧ ∀ e ∈ before, ¬ e.final

/-- The invariant of a run. -/
structure RunInvariant (s : State) : Prop where
  /-- The parameters meet the constraints of R7. -/
  parameters : s.cfg.WellFormed
  /-- Memory keeps its canonical form. -/
  memory : s.mem.wf
  /-- No byte outside memory is ever written (R60, R63). -/
  extent : CellsBelow s.cfg.memSize s.mem
  /-- The stored register 0 stays 0 under `X0_HARDWIRED` (R31, R32). -/
  hardZero : s.cfg.x0Hardwired = true → s.regs[0] = 0
  /-- Every event carries legal values (R19). -/
  events : ∀ e ∈ s.out, e.legal
  /-- Trace and status agree. -/
  trace : TraceTellsStatus s.status s.out

/-! ### The shapes of the instruction rules -/

/-- The words of a row decode to the instruction, under every parameter: `raw & mask == match` (R112). -/
def RowDecodes (mask fixed : Word) (mk : Word → Instr) : Prop :=
  ∀ cfg raw, raw &&& mask = fixed → decode cfg raw = .ok (mk raw)

/-- The rule of a register-register instruction: its words, and the value it writes to `x[rd]` from the values of
`x[rs1]` and `x[rs2]`, with all it leaves unchanged. It answers a next state for all operands in every state. -/
def RegRegRule (fixed : Word) (mk : Reg → Reg → Reg → Instr) (f : Word → Word → Word) : Prop :=
  RowDecodes 0xFE00707F fixed
      (fun raw => mk (raw.extractLsb' 7 5) (raw.extractLsb' 15 5) (raw.extractLsb' 20 5))
    ∧ ∀ s rd rs1 rs2, ∃ t, exec (mk rd rs1 rs2) s = .next t
      ∧ RegResult s t rd (f (s.readReg rs1) (s.readReg rs2)) (s.pc + 4)

/-- The rule of an instruction with a sign-extended immediate: its words, the decoder giving the immediate as the 32-bit form
of the signed number in bits 31 to 20, and the value it writes from the value of `x[rs1]` and that immediate, with all it
leaves unchanged. -/
def RegImmRule (fixed : Word) (mk : Reg → Reg → Word → Instr) (f : (a imm : Word) → Word) : Prop :=
  RowDecodes 0x0000707F fixed (fun raw =>
      mk (raw.extractLsb' 7 5) (raw.extractLsb' 15 5) (BitVec.ofInt 32 (raw.extractLsb' 20 12).toInt))
    ∧ ∀ s rd rs1 imm, ∃ t, exec (mk rd rs1 imm) s = .next t ∧ RegResult s t rd (f (s.readReg rs1) imm) (s.pc + 4)

/-- The rule of an immediate right shift, its amount in 0 .. 31. -/
def ShiftImmRule (fixed : Word) (mk : Reg → Reg → BitVec 5 → Instr) (f : Word → (sh : Nat) → Word) : Prop :=
  RowDecodes 0xFE00707F fixed
      (fun raw => mk (raw.extractLsb' 7 5) (raw.extractLsb' 15 5) (raw.extractLsb' 20 5))
    ∧ ∀ s rd rs1 (shamt : BitVec 5), ∃ t, exec (mk rd rs1 shamt) s = .next t
      ∧ RegResult s t rd (f (s.readReg rs1) shamt.toNat) (s.pc + 4)

/-- The value of the `w.bytes` bytes at `a`, read little-endian as a signed number (R62, R66). -/
def signedBytes (s : State) (a : Nat) : Width → Int
  | .byte => (s.readByte a).toInt
  | .half => (s.readByte (a + 1) ++ s.readByte a).toInt
  | .word => (wordAt s a).toInt

/-- The rule of a load: its words, the decoder giving the offset as the 32-bit form of the signed number in bits 31 to 20; in
bounds, the sign-extended bytes at `x[rs1]` plus that offset (modulo 2^32) go to `x[rd]`; out of bounds, the fatal halt with
the address as `info`. -/
def LoadRule (fixed : Word) (mk : Reg → Reg → Word → Instr) (w : Width) : Prop :=
  RowDecodes 0x0000707F fixed (fun raw =>
      mk (raw.extractLsb' 7 5) (raw.extractLsb' 15 5) (BitVec.ofInt 32 (raw.extractLsb' 20 12).toInt))
    ∧ ∀ s rd rs1 imm, ∀ ea : Word, ea = s.readReg rs1 + imm →
      (ea.toNat + w.bytes ≤ s.cfg.memSize → ∃ t, exec (mk rd rs1 imm) s = .next t
          ∧ RegResult s t rd (BitVec.ofInt 32 (signedBytes s ea.toNat w)) (s.pc + 4))
        ∧ (s.cfg.memSize < ea.toNat + w.bytes → ∃ t, exec (mk rd rs1 imm) s = .next t
          ∧ FatalHalt s t .outOfBoundsMemoryAccess ea)

/-- The rule of a store, in a state whose memory is canonical (`RunInvariant` keeps it so): its words; in bounds, the low bytes of
`x[rs2]` go to `x[rs1] + {imm7, imm5}` (modulo 2^32); out of bounds, the fatal halt with the address as `info`. -/
def StoreRule (fixed : Word) (mk : Reg → Reg → BitVec 5 → BitVec 7 → Instr) (w : Width) : Prop :=
  RowDecodes 0x0000707F fixed
      (fun raw => mk (raw.extractLsb' 15 5) (raw.extractLsb' 20 5) (raw.extractLsb' 7 5) (raw.extractLsb' 25 7))
    ∧ ∀ s rs1 rs2 (imm5 : BitVec 5) (imm7 : BitVec 7), s.mem.wf →
      ∀ ea : Word, ea = s.readReg rs1 + BitVec.ofInt 32 (imm7 ++ imm5).toInt →
      (ea.toNat + w.bytes ≤ s.cfg.memSize → ∃ t, exec (mk rs1 rs2 imm5 imm7) s = .next t
          ∧ StoreResult s t w ea (s.readReg rs2))
        ∧ (s.cfg.memSize < ea.toNat + w.bytes → ∃ t, exec (mk rs1 rs2 imm5 imm7) s = .next t
          ∧ FatalHalt s t .outOfBoundsMemoryAccess ea)

/-- The rule of a branch: its words, and the pc it goes to, taken exactly when `taken` holds of the two values. -/
def BranchRule (fixed : Word) (mk : Reg → Reg → BitVec 5 → BitVec 7 → Instr) (taken : Word → Word → Bool) : Prop :=
  RowDecodes 0x0000707F fixed
      (fun raw => mk (raw.extractLsb' 15 5) (raw.extractLsb' 20 5) (raw.extractLsb' 7 5) (raw.extractLsb' 25 7))
    ∧ ∀ s rs1 rs2 imm5 imm7, ∃ t, exec (mk rs1 rs2 imm5 imm7) s = .next t
      ∧ PcResult s t (if taken (s.readReg rs1) (s.readReg rs2) then s.pc + branchOffset imm5 imm7 else s.pc + 4)

/-- The rule of a custom instruction: the words its selector parameter picks, and the value it writes from the old value of
`x[rd]` and the values of `x[rs1]` and `x[rs2]`. -/
def CustomRule (sel : Config → Selector) (mk : Reg → Reg → Reg → Instr) (f : (old a b : Word) → Word) : Prop :=
  (∀ (cfg : Config) (raw : Word), cfg.SelectorsDiffer → raw.extractLsb' 0 7 = 0x2b →
      ⟨raw.extractLsb' 12 3, raw.extractLsb' 25 7⟩ = sel cfg →
      decode cfg raw = .ok (mk (raw.extractLsb' 7 5) (raw.extractLsb' 15 5) (raw.extractLsb' 20 5)))
    ∧ ∀ s rd rs1 rs2, ∃ t, exec (mk rd rs1 rs2) s = .next t
      ∧ RegResult s t rd (f (s.readReg rd) (s.readReg rs1) (s.readReg rs2)) (s.pc + 4)

end Sys2Proof.Machine
end

