-- ==== Sys2Proof/Certificates/Slice0/Obligations.lean ====
section
/-!
DEFINITION. The statements for the provers. Each docstring names the rule of the spec it formalises; the shapes of the
instruction rules (`RegRegRule`, `LoadRule`, ...) and the frames (`RegResult`, `FatalHalt`, ...) are in Sys2Proof/Safety.lean.
Every instruction rule concludes that `exec` answers a next state, for all operands and every state its premises admit.
-/

open Sys2Proof Sys2Proof.Machine

/-! ### The instructions -/

/-- R161, R162: sum and difference modulo 2^32 (D11). -/
def Obligations.AddAndSubWriteSumAndDifference : Prop :=
  RegRegRule 0x00000033 .add (fun a b => a + b) ∧ RegRegRule 0x40000033 .sub (fun a b => a - b)

/-- R163, R165: the low 32 bits of the exact signed product (D28), and the product divided by 2^32 rounded down. -/
def Obligations.MulAndMulhWriteProductHalves : Prop :=
  RegRegRule 0x02000033 .mul (fun a b => BitVec.ofInt 32 (a.toInt * b.toInt))
    ∧ RegRegRule 0x02001033 .mulh (fun a b => BitVec.ofInt 32 (a.toInt * b.toInt / 2 ^ 32))

/-- R160, R164, R169, R170: the amount is the low five bits of `x[rs2]`; a left shift multiplies modulo 2^32, a logical
right shift divides the unsigned value, an arithmetic one the signed value, both rounded down. -/
def Obligations.RegisterShiftsUseLowFiveBits : Prop :=
  RegRegRule 0x00001033 .sll (fun a b => BitVec.ofNat 32 (a.toNat * 2 ^ (b.toNat % 32)))
    ∧ RegRegRule 0x00005033 .srl (fun a b => BitVec.ofNat 32 (a.toNat / 2 ^ (b.toNat % 32)))
    ∧ RegRegRule 0x40005033 .sra (fun a b => BitVec.ofInt 32 (a.toInt / 2 ^ (b.toNat % 32)))

/-- R166, R167, R171, R173. -/
def Obligations.CompareAndBitwiseResults : Prop :=
  RegRegRule 0x00002033 .slt (fun a b => if a.toInt < b.toInt then 1 else 0)
    ∧ RegRegRule 0x00004033 .xor (fun a b => a ^^^ b)
    ∧ RegRegRule 0x00006033 .or (fun a b => a ||| b)
    ∧ RegRegRule 0x00007033 .and (fun a b => a &&& b)

/-- R168, R172: rounding toward zero, the sign of the dividend, and the two corner lines, which are the spec's decision
D12. -/
def Obligations.DivAndRemRoundTowardZero : Prop :=
  RegRegRule 0x02004033 .div (fun a b =>
      if b = 0 then 0xFFFFFFFF
      else if a = 0x80000000 ∧ b = 0xFFFFFFFF then 0x80000000
      else BitVec.ofInt 32 (a.toInt.tdiv b.toInt))
    ∧ RegRegRule 0x02006033 .rem (fun a b =>
      if b = 0 then a
      else if a = 0x80000000 ∧ b = 0xFFFFFFFF then 0
      else BitVec.ofInt 32 (a.toInt.tmod b.toInt))

/-- R181, R183, R184, R187, R188: the decoder sign-extends the 12-bit immediate (R109), and the instruction uses all of it. -/
def Obligations.ImmediateArithmeticSignExtends : Prop :=
  RegImmRule 0x00000013 .addi (fun a imm => BitVec.ofInt 32 (a.toInt + imm.toInt))
    ∧ RegImmRule 0x00002013 .slti (fun a imm => if a.toInt < imm.toInt then 1 else 0)
    ∧ RegImmRule 0x00004013 .xori (fun a imm => a ^^^ imm)
    ∧ RegImmRule 0x00006013 .ori (fun a imm => a ||| imm)
    ∧ RegImmRule 0x00007013 .andi (fun a imm => a &&& imm)

/-- R180, R182, R185, R186: the amount is `imm12[4:0]`, for `slli` whatever the upper seven bits hold (D14). -/
def Obligations.ImmediateShiftsUseLowFiveBits : Prop :=
  RegImmRule 0x00001013 .slli (fun a imm => BitVec.ofNat 32 (a.toNat * 2 ^ (imm.toNat % 32)))
    ∧ ShiftImmRule 0x00005013 .srli (fun a sh => BitVec.ofNat 32 (a.toNat / 2 ^ sh))
    ∧ ShiftImmRule 0x40005013 .srai (fun a sh => BitVec.ofInt 32 (a.toInt / 2 ^ sh))

/-- R195 to R198: the address, the sign-extended value, and the bounds error. -/
def Obligations.LoadsSignExtendOrHalt : Prop :=
  LoadRule 0x00000003 .lb .byte ∧ LoadRule 0x00001003 .lh .half ∧ LoadRule 0x00002003 .lw .word

/-- R205 to R208: the address, the bytes stored and all others left alone, and the bounds error. -/
def Obligations.StoresWriteLowBytesOrHalt : Prop :=
  StoreRule 0x00000023 .sb .byte ∧ StoreRule 0x00001023 .sh .half ∧ StoreRule 0x00002023 .sw .word

/-- R215, R216, R217: equality of all 32 bits decides; a not-taken branch ignores its offset. -/
def Obligations.BranchesCompareAllBits : Prop :=
  BranchRule 0x00000063 .beq (fun a b => a == b) ∧ BranchRule 0x00001063 .bne (fun a b => a != b)

/-- R218: the link is `pc + 4`, the target `pc` plus the jump offset, both from the address of the `jal`. -/
def Obligations.JalLinksAndJumps : Prop :=
  RowDecodes 0x0000007F 0x0000006F (fun raw => .jal (raw.extractLsb' 7 5) (raw.extractLsb' 12 20))
    ∧ ∀ s rd imm20, ∃ t, exec (.jal rd imm20) s = .next t ∧ RegResult s t rd (s.pc + 4) (s.pc + jumpOffset imm20)

/-- R230: the 20 bits fill bits 31:12, the low 12 are zero. -/
def Obligations.LuiFillsUpperBits : Prop :=
  RowDecodes 0x0000007F 0x00000037 (fun raw => .lui (raw.extractLsb' 7 5) (raw.extractLsb' 12 20))
    ∧ ∀ s rd (imm20 : BitVec 20), ∃ t, exec (.lui rd imm20) s = .next t
      ∧ RegResult s t rd (BitVec.ofNat 32 (imm20.toNat * 2 ^ 12)) (s.pc + 4)

/-- R236, R237, R238, under every choice of the selectors (D16): `mac` and `acc` add to the old `x[rd]`, `gep` does not read
it. -/
def Obligations.CustomInstructionsFuse : Prop :=
  CustomRule Config.selMac .mac (fun old a b => old + BitVec.ofInt 32 (a.toInt * b.toInt))
    ∧ CustomRule Config.selAcc .acc (fun old a b => old + a + b)
    ∧ CustomRule Config.selGep .gep (fun _ a b => a + BitVec.ofNat 32 (b.toNat * 16))

/-- R245 to R251: the whole of `x[10]` picks the service, whatever the fields of the word hold; service 4 emits the string
from `x[11]` up to the first zero byte or the end of memory (D19, D20, D21, D23, D29). That the step not taken after the exit
is the fault `notRunning` is this model's form (notes/assumptions/4.md, DEDUCED). -/
def Obligations.EcallServicesByNumber : Prop :=
  RowDecodes 0x0000007F 0x00000073
      (fun raw => .ecall (raw.extractLsb' 7 5) (raw.extractLsb' 15 5) (raw.extractLsb' 12 3) (raw.extractLsb' 20 12))
    ∧ ∀ s rd rs1 funct3 imm12, ∃ t, exec (.ecall rd rs1 funct3 imm12) s = .next t
      ∧ ((s.readReg 10).toNat = 1 → EmitResult s t (.printInt (s.readReg 11).toInt))
      ∧ ((s.readReg 10).toNat = 4 → ∃ bytes, IsString s (s.readReg 11).toNat bytes ∧ EmitResult s t (.printString bytes))
      ∧ ((s.readReg 10).toNat = 10 → t.status = .exited ∧ t.out = s.out ++ [.exitMessage]
          ∧ SameRegs s t ∧ t.pc = s.pc ∧ SameMemory s t ∧ t.cfg = s.cfg
          ∧ t.processStatus = some 0 ∧ step t = .fault .notRunning)
      ∧ ((s.readReg 10).toNat = 11 → EmitResult s t (.printChar ((s.readReg 11).extractLsb' 0 8)))
      ∧ ((s.readReg 10).toNat ∉ [1, 4, 10, 11] → FatalHalt s t .invalidEcall (s.readReg 10)
          ∧ t.processStatus = some s.cfg.failStatus)

/-- R248: the string of service 4 is the one string that starts at the address and stops at the first zero byte or at the
end of memory; there is exactly one. -/
def Obligations.StringServiceScansToZeroOrEnd : Prop :=
  ∀ (s : State) (a : Word) (bytes : List Byte), IsString s a.toNat bytes ↔ bytes = s.cstring a

/-- R118 (D15): every word with opcode `0x73` is an `ecall`, and its other bits change nothing. -/
def Obligations.EcallIgnoresItsOtherBits : Prop :=
  ∀ (cfg : Config) (raw raw' : Word), raw.extractLsb' 0 7 = 0x73 → raw'.extractLsb' 0 7 = 0x73 →
    ∃ i j, decode cfg raw = .ok i ∧ decode cfg raw' = .ok j ∧ IsEcall i ∧ ∀ s, exec i s = exec j s

/-- R115 (D14): every word with opcode `0x13` and `funct3` 1 is `slli`, and shifts by its bits 24 to 20, whatever its bits
31 to 25 hold. -/
def Obligations.SlliIgnoresUpperImmediate : Prop :=
  ∀ (cfg : Config) (raw : Word), raw.extractLsb' 0 7 = 0x13 → raw.extractLsb' 12 3 = 1 →
    ∃ i, decode cfg raw = .ok i ∧ ∀ s, ∃ t, exec i s = .next t
      ∧ RegResult s t (raw.extractLsb' 7 5)
        (BitVec.ofNat 32 ((s.readReg (raw.extractLsb' 15 5)).toNat * 2 ^ (raw.extractLsb' 20 5).toNat)) (s.pc + 4)

/-! ### Encoding -/

/-- Decode and encode agree: every well-formed instruction, every operand at every value, under all parameters. -/
def Obligations.DecodeOfEncodeIsIdentity : Prop :=
  ∀ (cfg : Config) (i : Instr), i.WellFormed cfg → decode cfg (encode cfg i) = .ok i

/-- The other direction: a word is the encoding of the instruction it decodes to, so no bit of it is dropped. -/
def Obligations.EncodeOfDecodeIsIdentity : Prop :=
  ∀ (cfg : Config) (raw : Word) (i : Instr), decode cfg raw = .ok i → encode cfg i = raw

/-- R112: a word decodes to an instruction of a row exactly when its fixed bits are the row's. -/
def Obligations.RowMatchDecidesInstruction : Prop :=
  ∀ (cfg : Config) (raw : Word) (i : Instr), cfg.SelectorsDiffer →
    ((i.row cfg).holds raw ↔ ∃ j, decode cfg raw = .ok j ∧ j.row cfg = i.row cfg)

/-- R111: a word matches at most one row (the spec marks this sentence as derived). -/
def Obligations.RowsNeverOverlap : Prop :=
  ∀ (cfg : Config) (raw : Word) (i j : Instr), cfg.SelectorsDiffer → (i.row cfg).holds raw → (j.row cfg).holds raw →
    i.row cfg = j.row cfg

/-- R120: exactly the words whose opcode is none of the nine are rejected as `InvalidOpcode`. -/
def Obligations.UnknownOpcodesAreInvalidOpcode : Prop :=
  ∀ (cfg : Config) (raw why : Word),
    decode cfg raw = .error (.invalidOpcode why) ↔ why = raw ∧ raw.extractLsb' 0 7 ∉ knownOpcodes

/-- R121: exactly the words of the complete list are rejected as `InvalidInstruction`. -/
def Obligations.IllegalFunctionCodesAreInvalidInstruction : Prop :=
  ∀ (cfg : Config) (raw why : Word),
    decode cfg raw = .error (.invalidInstruction why) ↔ why = raw ∧ IllegalFunction cfg raw

/-- Words written out by the spec (the examples of R161, R182, R198, R208, R216, R218, R230, R236, R238, R246) decode to
the instructions they stand for, under the default selectors. -/
def Obligations.SpecWordsDecode : Prop :=
  decode Config.specDefault 0x002081B3 = .ok (.add 3 1 2)
    ∧ decode Config.specDefault 0x00409193 = .ok (.slli 3 1 4)
    ∧ decode Config.specDefault 0xFFC0A183 = .ok (.lw 3 1 0xFFFFFFFC)
    ∧ decode Config.specDefault 0xFE20AE23 = .ok (.sw 1 2 0x1C 0x7F)
    ∧ decode Config.specDefault 0x00208863 = .ok (.beq 1 2 0b10000 0)
    ∧ decode Config.specDefault 0xFF1FF0EF = .ok (.jal 1 0xFF1FF)
    ∧ decode Config.specDefault 0xDEADB1B7 = .ok (.lui 3 0xDEADB)
    ∧ decode Config.specDefault 0x002081AB = .ok (.mac 3 1 2)
    ∧ decode Config.specDefault 0x0020A1AB = .ok (.gep 3 1 2)
    ∧ decode Config.specDefault 0x00000073 = .ok (.ecall 0 0 0 0)

/-! ### Sign extension and offset assembly -/

/-- R141: the property of `sign_extend` at every width, and its equivalent form by two shifts. -/
def Obligations.SignExtendIsTwosComplement : Prop :=
  ∀ w n, 1 ≤ w → w ≤ 32 → n < 2 ^ w →
    (signExtend (BitVec.ofNat 32 n) w).toInt = (if n.testBit (w - 1) then (n : Int) - 2 ^ w else n)
    ∧ signExtend (BitVec.ofNat 32 n) w = (BitVec.ofNat 32 n <<< (32 - w)).sshiftRight (32 - w)

/-- R143, R144, R145: each offset as the number its fragment bits stand for. -/
def Obligations.OffsetsHaveTheirPlaceValues : Prop :=
  (∀ (imm5 : BitVec 5) (imm7 : BitVec 7), (branchOffset imm5 imm7).toInt =
      -4096 * (imm7.toNat / 64) + 2048 * (imm5.toNat % 2) + 32 * (imm7.toNat % 64) + 2 * (imm5.toNat / 2))
    ∧ (∀ imm20 : BitVec 20, (jumpOffset imm20).toInt =
      -1048576 * (imm20.toNat / 2 ^ 19) + 4096 * (imm20.toNat % 256) + 2048 * (imm20.toNat / 256 % 2)
        + 2 * (imm20.toNat / 512 % 1024))
    ∧ (∀ (imm5 : BitVec 5) (imm7 : BitVec 7), (storeOffset imm5 imm7).toInt =
      -2048 * (imm7.toNat / 64) + 32 * (imm7.toNat % 64) + imm5.toNat)

/-- R146: scrambling a representable offset and assembling it again gives it back. -/
def Obligations.OffsetAssemblyRoundTrips : Prop :=
  (∀ o, BranchOffsetFits o → branchOffset (branchFragments o).1 (branchFragments o).2 = o)
    ∧ (∀ o, JumpOffsetFits o → jumpOffset (jumpFragment o) = o)
    ∧ (∀ o, Imm12Fits o → storeOffset (storeFragments o).1 (storeFragments o).2 = o)

/-! ### Memory -/

/-- R63, R64: a read raises exactly out of bounds, at whatever alignment, and otherwise gives the little-endian number of
its bytes. -/
def Obligations.MemReadIsLittleEndian : Prop :=
  ∀ (s : State) (addr : Word) (w : Width),
    (s.cfg.memSize < addr.toNat + w.bytes → s.memRead addr w = none)
    ∧ (addr.toNat + w.bytes ≤ s.cfg.memSize → ∃ v, s.memRead addr w = some v
      ∧ v.toNat = ((List.range w.bytes).map fun k => (s.readByte (addr.toNat + k)).toNat * 256 ^ k).sum)

/-- R63, R65: a write raises exactly out of bounds and otherwise changes exactly its bytes. That the memory stays canonical
is about this model's own list form of memory, not a rule of the spec (notes/assumptions/5.md, DEDUCED). -/
def Obligations.MemWriteChangesItsBytesOnly : Prop :=
  ∀ (s : State) (addr : Word) (w : Width) (v : Word), s.mem.wf →
    (s.cfg.memSize < addr.toNat + w.bytes → s.memWrite addr w v = none)
    ∧ (addr.toNat + w.bytes ≤ s.cfg.memSize → ∃ t, s.memWrite addr w v = some t
      ∧ (∀ k, k < w.bytes → t.readByte (addr.toNat + k) = v.extractLsb' (8 * k) 8)
      ∧ SameMemoryOutside addr.toNat w.bytes s t ∧ t.mem.wf
      ∧ t = { s with mem := t.mem })

/-- R62: after a word store, every narrower and misaligned view shows the bytes of the word, and a fetch from there gives
the word. -/
def Obligations.MixedWidthAccessesSeeTheBytes : Prop :=
  ∀ (s t : State) (addr v : Word), s.cfg.memSize ≤ 2 ^ 32 → s.mem.wf → s.memWrite addr .word v = some t →
    (∀ k : Nat, k < 4 → t.memRead (addr + BitVec.ofNat 32 k) .byte = some ((v.extractLsb' (8 * k) 8).setWidth 32))
    ∧ (∀ k : Nat, k < 3 → t.memRead (addr + BitVec.ofNat 32 k) .half = some ((v.extractLsb' (8 * k) 16).setWidth 32))
    ∧ t.memRead addr .word = some v
    ∧ (t.setPc addr).fetch = some v

/-- A load after a store to the same address gives the stored low bytes, sign-extended (95_test_vectors.md 1.4 and 1.5):
`sb` then `lb`, `sh` then `lh`, `sw` then `lw`, for every pair of operand forms that name one address. -/
def Obligations.LoadAfterStoreGivesTheValue : Prop :=
  ∀ (s t : State) (rs1 rs2 rd rb : Reg) (imm5 : BitVec 5) (imm7 : BitVec 7) (imm : Word), s.mem.wf →
    s.loadAddress rb imm = s.storeAddress rs1 imm5 imm7 →
    ((s.storeAddress rs1 imm5 imm7).toNat + 1 ≤ s.cfg.memSize → exec (.sb rs1 rs2 imm5 imm7) s = .next t →
      ∃ u, exec (.lb rd rb imm) t = .next u
        ∧ u.readReg rd = written s rd (BitVec.ofInt 32 ((s.readReg rs2).extractLsb' 0 8).toInt))
    ∧ ((s.storeAddress rs1 imm5 imm7).toNat + 2 ≤ s.cfg.memSize → exec (.sh rs1 rs2 imm5 imm7) s = .next t →
      ∃ u, exec (.lh rd rb imm) t = .next u
        ∧ u.readReg rd = written s rd (BitVec.ofInt 32 ((s.readReg rs2).extractLsb' 0 16).toInt))
    ∧ ((s.storeAddress rs1 imm5 imm7).toNat + 4 ≤ s.cfg.memSize → exec (.sw rs1 rs2 imm5 imm7) s = .next t →
      ∃ u, exec (.lw rd rb imm) t = .next u ∧ u.readReg rd = written s rd (s.readReg rs2))

/-- A store is seen by the fetch of the very next instruction (R75, R303): a step that stores a word over the instruction
after it is followed by a step of that word. -/
def Obligations.SelfModifyingCodeTakesEffectAtOnce : Prop :=
  ∀ (s : State) (rs1 rs2 : Reg) (imm5 : BitVec 5) (imm7 : BitVec 7) (i : Instr), s.mem.wf → s.status = .running →
    s.pc.toNat + 4 ≤ s.cfg.memSize → decode s.cfg (wordAt s s.pc.toNat) = .ok (.sw rs1 rs2 imm5 imm7) →
    s.storeAddress rs1 imm5 imm7 = s.pc + 4 → (s.pc + 4).toNat + 4 ≤ s.cfg.memSize →
    decode s.cfg (s.readReg rs2) = .ok i →
    ∃ t, step s = .next t ∧ t.pc = s.pc + 4 ∧ step t = exec i t

/-! ### Registers -/

/-- R31: a read gives the value last written, or 0 after reset; register 0 is like any other unless hard-wired, when it
always reads 0. -/
def Obligations.RegisterReadsGiveTheLastWrite : Prop :=
  (∀ cfg r, (State.resetWith cfg).readReg r = 0)
    ∧ (∀ (s : State) (r r' : Reg) (v : Word), ¬ (s.cfg.x0Hardwired = true ∧ r = 0) →
        (s.writeReg r v).readReg r' = if r' = r then v else s.readReg r')
    ∧ (∀ s : State, s.cfg.x0Hardwired = true → s.readReg 0 = 0)

/-- R32: a write replaces the register's value, an instruction writes at most the register its `rd` names, and under
`X0_HARDWIRED` a write to register 0 is discarded whole. -/
def Obligations.OnlyTheDestinationIsWritten : Prop :=
  (∀ (i : Instr) (s t : State), exec i s = .next t → ∀ r, destination i ≠ some r → t.readReg r = s.readReg r)
    ∧ (∀ (s : State) (r : Reg) (v : Word), ¬ (s.cfg.x0Hardwired = true ∧ r = 0) → (s.writeReg r v).readReg r = v)
    ∧ (∀ (s : State) (v : Word), s.cfg.x0Hardwired = true → s.writeReg 0 v = s)

/-- R35 (a derived table of the spec): an instruction depends on no register but its sources. Two running states that
differ in other registers alone give results that differ in other registers alone. -/
def Obligations.InstructionsReadOnlyTheirSources : Prop :=
  ∀ (i : Instr) (s s' t : State), s.status = .running → s'.status = s.status → s'.cfg = s.cfg → s'.pc = s.pc →
    s'.mem = s.mem → s'.out = s.out → (∀ r ∈ sources i, s'.readReg r = s.readReg r) → exec i s = .next t →
    ∃ t', exec i s' = .next t' ∧ t'.status = t.status ∧ t'.cfg = t.cfg ∧ t'.pc = t.pc ∧ t'.mem = t.mem ∧ t'.out = t.out
      ∧ (t.status = .running → ∀ rd, destination i = some rd → t'.readReg rd = t.readReg rd)

/-! ### The program counter -/

/-- R37: the pc after every instruction; a raise leaves it at the instruction. -/
def Obligations.PcAdvancesByTheTable : Prop :=
  ∀ (i : Instr) (s : State), s.status = .running → ∃ t, exec i s = .next t
    ∧ ((∀ kind info, t.status ≠ .fatal kind info) → t.pc = nextPc s i)
    ∧ ((∃ kind info, t.status = .fatal kind info) → t.pc = s.pc)

/-- R38 (a derived sentence of the spec): the pc stays a multiple of 4 as long as every offset taken is one. -/
def Obligations.AlignedOffsetsKeepThePcAligned : Prop :=
  ∀ s t, s.pc.toNat % 4 = 0 → step s = .next t →
    (∀ i, decode s.cfg (wordAt s s.pc.toNat) = .ok i → (nextPc s i - s.pc).toNat % 4 = 0) → t.pc.toNat % 4 = 0

/-- R216, R264: a transfer to an address outside memory completes, and the next step raises at its fetch, with the target
as `info`. -/
def Obligations.TransferOutsideMemoryRaisesAtTheNextFetch : Prop :=
  ∀ (s : State) (i : Instr), s.status = .running → s.pc.toNat + 4 ≤ s.cfg.memSize →
    decode s.cfg (wordAt s s.pc.toNat) = .ok i →
    ((∃ rd imm20, i = .jal rd imm20) ∨ (∃ rs1 rs2 imm5 imm7, i = .beq rs1 rs2 imm5 imm7)
      ∨ (∃ rs1 rs2 imm5 imm7, i = .bne rs1 rs2 imm5 imm7)) →
    s.cfg.memSize < (nextPc s i).toNat + 4 →
    ∃ t u, step s = .next t ∧ t.status = .running ∧ t.pc = nextPc s i ∧ step t = .next u
      ∧ FatalHalt t u .outOfBoundsMemoryAccess (nextPc s i)

/-! ### The step, the halts and the trace -/

/-- R40: when the bytes at the pc decode to an instruction, the step is that instruction's meaning. -/
def Obligations.StepRunsTheDecodedInstruction : Prop :=
  ∀ (s : State) (i : Instr), s.status = .running → s.pc.toNat + 4 ≤ s.cfg.memSize →
    decodeBytes s.cfg [s.readByte s.pc.toNat, s.readByte (s.pc.toNat + 1), s.readByte (s.pc.toNat + 2),
      s.readByte (s.pc.toNat + 3)] = .ok (i, []) →
    step s = exec i s

/-- R264: the four points of a step in their order, what each raises and for which words, and that only loads, stores and
`ecall` raise in execution. -/
def Obligations.StepRaisesInTheOrderOfItsPoints : Prop :=
  ∀ s : State, s.status = .running →
    (s.cfg.memSize < s.pc.toNat + 4 → ∃ t, step s = .next t ∧ FatalHalt s t .outOfBoundsMemoryAccess s.pc)
    ∧ (s.pc.toNat + 4 ≤ s.cfg.memSize → ∀ raw, raw = wordAt s s.pc.toNat →
      (raw.extractLsb' 0 7 ∉ knownOpcodes → ∃ t, step s = .next t ∧ FatalHalt s t .invalidOpcode raw)
      ∧ (IllegalFunction s.cfg raw → ∃ t, step s = .next t ∧ FatalHalt s t .invalidInstruction raw)
      ∧ (raw.extractLsb' 0 7 ∈ knownOpcodes → ¬ IllegalFunction s.cfg raw →
        ∃ i t, decode s.cfg raw = .ok i ∧ step s = exec i s ∧ exec i s = .next t
          ∧ ∀ kind info, t.status = .fatal kind info →
            (kind = .outOfBoundsMemoryAccess ∧ ∃ w, dataAccess s i = some (info, w)
              ∧ s.cfg.memSize < info.toNat + w.bytes)
            ∨ (kind = .invalidEcall ∧ IsEcall i ∧ info = s.readReg 10 ∧ info.toNat ∉ [1, 4, 10, 11])))

/-- R262: a fatal halt is precise, and no step follows it (D10). That the step not taken is the fault `notRunning` is this
model's form (notes/assumptions/4.md, DEDUCED). -/
def Obligations.FatalHaltIsPreciseAndFinal : Prop :=
  ∀ (s t : State) (kind : FatalKind) (info : Word), step s = .next t → t.status = .fatal kind info →
    FatalHalt s t kind info ∧ step t = .fault .notRunning ∧ t.processStatus = some t.cfg.failStatus

/-- R42: the status is `Running` after reset, no step is taken unless it is `Running`, no instruction reads it, and the
status output reports it: nothing while running, 0 for `Exited`, `FAIL_STATUS` (not 0) for a fatal status. That a step not
taken is the fault `notRunning` is this model's form (notes/assumptions/4.md, DEDUCED). -/
def Obligations.StatusGovernsTheRun : Prop :=
  (∀ cfg, (State.resetWith cfg).status = .running)
    ∧ (∀ s, s.status ≠ .running ↔ step s = .fault .notRunning)
    ∧ (∀ (i : Instr) (s t : State) (st : Status), exec i s = .next t → ∃ t', exec i { s with status := st } = .next t'
        ∧ t'.regs = t.regs ∧ t'.pc = t.pc ∧ t'.mem = t.mem ∧ t'.out = t.out ∧ t'.cfg = t.cfg)
    ∧ (∀ s : State, s.cfg.WellFormed → (s.status = .exited ↔ s.processStatus = some 0)
        ∧ (s.status = .running ↔ s.processStatus = none)
        ∧ (∀ kind info, s.status = .fatal kind info → s.processStatus = some s.cfg.failStatus ∧ s.cfg.failStatus ≠ 0))

/-- R41, R250: the `exit` service is the only way to the status `Exited`, and a run leaves `Running` only by it or by a
fatal halt. -/
def Obligations.OnlyTheExitServiceExits : Prop :=
  ∀ s t, step s = .next t →
    (t.status = .exited ↔ s.pc.toNat + 4 ≤ s.cfg.memSize
      ∧ (∃ i, decode s.cfg (wordAt s s.pc.toNat) = .ok i ∧ IsEcall i) ∧ s.readReg 10 = 10)

/-- R43: the trace is empty after reset and append-only. A step appends at most one event, and reads nothing of the trace:
from any other trace it makes the same change. -/
def Obligations.TraceIsAppendOnlyAndNeverRead : Prop :=
  (∀ cfg, (State.resetWith cfg).out = [])
    ∧ ∀ s t, step s = .next t → ∃ events, events.length ≤ 1 ∧ t.out = s.out ++ events
      ∧ ∀ before, step { s with out := before } = .next { t with out := before ++ events }

/-- R67: only stores write memory, and only the bytes of their access; no instruction changes the parameters. -/
def Obligations.OnlyStoresWriteMemory : Prop :=
  ∀ (i : Instr) (s t : State), s.mem.wf → exec i s = .next t → t.cfg = s.cfg
    ∧ (storeTarget s i = none → SameMemory s t)
    ∧ (∀ ea w, storeTarget s i = some (ea, w) → SameMemoryOutside ea.toNat w.bytes s t)

/-! ### Reset and the invariant -/

/-- R46, R290: reset sets every register to 0, the pc to `RESET_PC`, memory to `INIT_MEM` (0 where the loader wrote
nothing), the status to `Running` and the trace to empty. -/
def Obligations.ResetGivesEveryPieceItsValue : Prop :=
  ∀ cfg : Config, cfg.WellFormed →
    (∀ r, (State.resetWith cfg).readReg r = 0)
    ∧ (State.resetWith cfg).pc = cfg.resetPc
    ∧ (∀ a b, (a, b) ∈ cfg.initMem → (State.resetWith cfg).readByte a = b)
    ∧ (∀ a, (∀ b, (a, b) ∉ cfg.initMem) → (State.resetWith cfg).readByte a = 0)
    ∧ (State.resetWith cfg).status = .running
    ∧ (State.resetWith cfg).out = []

/-- The invariant holds after reset, under all parameters that meet R7. -/
def Obligations.ResetMeetsTheInvariant : Prop :=
  ∀ cfg : Config, cfg.WellFormed → RunInvariant (State.resetWith cfg)

/-- Every step keeps the invariant, from every state that meets it: canonical memory that never grows past `MEM_SIZE`, the
hard-wired register, legal events, and a trace that ends in a halting event exactly when the status says so. -/
def Obligations.EveryStepKeepsTheInvariant : Prop :=
  ∀ s t, RunInvariant s → step s = .next t → RunInvariant t

/-- The word placed by `withFetchWord` is the one the next step fetches (host interface, notes/assumptions/6.md). -/
def Obligations.PlacedWordIsFetchedNext : Prop :=
  ∀ (s : State) (i : Instr), s.mem.wf → s.status = .running → s.pc.toNat + 4 ≤ s.cfg.memSize → i.WellFormed s.cfg →
    step (s.withFetchWord 32 (encode s.cfg i).toNat) = exec i (s.withFetchWord 32 (encode s.cfg i).toNat)

/-! ### Arithmetic laws -/

/-- R172: for every `n` and every `d` other than 0 and the overflow pair, `d * q + r = n`, `|r| < |d|`, and `r` is 0 or has
the sign of `n`. -/
def Obligations.QuotientAndRemainderRecompose : Prop :=
  ∀ (s t u : State) (q r rs1 rs2 : Reg), ¬ (s.cfg.x0Hardwired = true ∧ (q = 0 ∨ r = 0)) → s.readReg rs2 ≠ 0 →
    ¬ (s.readReg rs1 = 0x80000000 ∧ s.readReg rs2 = 0xFFFFFFFF) →
    exec (.div q rs1 rs2) s = .next t → exec (.rem r rs1 rs2) s = .next u →
    (s.readReg rs2).toInt * (t.readReg q).toInt + (u.readReg r).toInt = (s.readReg rs1).toInt
    ∧ |(u.readReg r).toInt| < |(s.readReg rs2).toInt|
    ∧ (0 ≤ (s.readReg rs1).toInt → 0 ≤ (u.readReg r).toInt) ∧ ((s.readReg rs1).toInt ≤ 0 → (u.readReg r).toInt ≤ 0)

/-- R163, R165: `mulh` and `mul` together give the whole signed product. -/
def Obligations.ProductHalvesRecompose : Prop :=
  ∀ (s t u : State) (lo hi rs1 rs2 : Reg), ¬ (s.cfg.x0Hardwired = true ∧ (lo = 0 ∨ hi = 0)) →
    exec (.mul lo rs1 rs2) s = .next t → exec (.mulh hi rs1 rs2) s = .next u →
    (u.readReg hi).toInt * 2 ^ 32 + (t.readReg lo).toNat = (s.readReg rs1).toInt * (s.readReg rs2).toInt

/-- R131, R230: `lui` then `addi` with the parts of a 32-bit constant builds it, whatever `x[rd]` held. -/
def Obligations.LuiThenAddiBuildsAnyConstant : Prop :=
  ∀ (s : State) (rd : Reg) (imm : Word), ∃ i j t u, (Pseudo.li32 rd imm).expand = [i, j] ∧ exec i s = .next t
    ∧ exec j t = .next u ∧ RegResult s u rd imm (s.pc + 8)

/-- R122, R131: `nop` changes no register and advances the pc; `mv` copies and `not` complements, with no need of a zero
register. -/
def Obligations.NopMvAndNotWork : Prop :=
  ∀ s : State, (∃ i t, Pseudo.nop.expand = [i] ∧ exec i s = .next t ∧ PcResult s t (s.pc + 4))
    ∧ ∀ rd rs, (∃ i t, (Pseudo.mv rd rs).expand = [i] ∧ exec i s = .next t ∧ RegResult s t rd (s.readReg rs) (s.pc + 4))
      ∧ (∃ i t, (Pseudo.not rd rs).expand = [i] ∧ exec i s = .next t ∧ RegResult s t rd (~~~ s.readReg rs) (s.pc + 4))

/-! ### The decoded record -/

/-- R109 (with R102 to R107 for the places of the fields): what the decoder extends and what it leaves raw. The record of
opcodes `0x13` and `0x03` holds the immediate as the 32-bit form of the signed 12-bit number, that of `0x73` the 12 bits as
they stand, those of stores, branches, `lui` and `jal` their raw fragments; every record holds its word. -/
def Obligations.RecordsHoldExtendedImmediatesOrRawFragments : Prop :=
  ∀ raw : Word,
    let op := raw.extractLsb' 0 7
    let rd := raw.extractLsb' 7 5
    let f3 := raw.extractLsb' 12 3
    let rs1 := raw.extractLsb' 15 5
    let rs2 := raw.extractLsb' 20 5
    let imm12 := raw.extractLsb' 20 12
    let f7 := raw.extractLsb' 25 7
    let imm20 := raw.extractLsb' 12 20
    (op = 0x13 ∨ op = 0x03 → decodeRecord raw = some (.iType raw rd rs1 f3 (.extended (BitVec.ofInt 32 imm12.toInt))))
    ∧ (op = 0x73 → decodeRecord raw = some (.iType raw rd rs1 f3 (.unextended imm12)))
    ∧ (op = 0x23 → decodeRecord raw = some (.sType raw rs1 rs2 f3 rd f7))
    ∧ (op = 0x63 → decodeRecord raw = some (.sbType raw rs1 rs2 f3 rd f7))
    ∧ (op = 0x37 → decodeRecord raw = some (.uType raw rd imm20))
    ∧ (op = 0x6F → decodeRecord raw = some (.ujType raw rd imm20))
    ∧ (op = 0x33 ∨ op = 0x2b → decodeRecord raw = some (.rType raw rd rs1 rs2 f3 f7))
end

