-- ==== Sys2Proof/Laws/Alu.lean ====
section
/-!
SUPPORT. The ALU operations as arithmetic on the numbers their operands stand for (41_r_type_alu.md R160 to R173).
-/

namespace Sys2Proof.Machine

/-- R163: the low half is the product itself, reduced to 32 bits. -/
theorem aluMul_eq (a b : Word) : aluMul a b = BitVec.ofInt 32 (a.toInt * b.toInt) := by
  apply BitVec.eq_of_toNat_eq
  simp only [aluMul, productSigned, BitVec.extractLsb'_toNat, BitVec.toNat_ofInt]
  omega

/-- R165: the high half is the product divided by 2^32, rounded down. -/
theorem aluMulh_eq (a b : Word) : aluMulh a b = BitVec.ofInt 32 (a.toInt * b.toInt / 2 ^ 32) := by
  apply BitVec.eq_of_toNat_eq
  simp only [aluMulh, productSigned, BitVec.extractLsb'_toNat, BitVec.toNat_ofInt, Nat.shiftRight_eq_div_pow]
  omega

/-- R160: the amount is the register value modulo 32. -/
theorem toNat_shamtReg (b : Word) : (shamtReg b).toNat = b.toNat % 32 := by
  simp [shamtReg, BitVec.extractLsb'_toNat]

theorem aluSll_eq (a : Word) (sh : BitVec 5) : aluSll a sh = BitVec.ofNat 32 (a.toNat * 2 ^ sh.toNat) := by
  apply BitVec.eq_of_toNat_eq
  simp [aluSll, Nat.shiftLeft_eq]

theorem aluSrl_eq (a : Word) (sh : BitVec 5) : aluSrl a sh = BitVec.ofNat 32 (a.toNat / 2 ^ sh.toNat) := by
  apply BitVec.eq_of_toNat_eq
  simp only [aluSrl, BitVec.toNat_ushiftRight, Nat.shiftRight_eq_div_pow, BitVec.toNat_ofNat]
  rw [Nat.mod_eq_of_lt (Nat.lt_of_le_of_lt (Nat.div_le_self _ _) a.isLt)]

theorem aluSra_eq (a : Word) (sh : BitVec 5) : aluSra a sh = BitVec.ofInt 32 (a.toInt / 2 ^ sh.toNat) := by
  apply BitVec.eq_of_toInt_eq
  rw [aluSra, BitVec.toInt_sshiftRight, Int.shiftRight_eq_div_pow, BitVec.toInt_ofInt]
  have h1 := a.toInt_lt
  have h2 := a.le_toInt
  simp at h1 h2
  have hpos : (0 : Int) < 2 ^ sh.toNat := by positivity
  have hone : (1 : Int) ≤ 2 ^ sh.toNat := hpos
  have hlo : -2 ^ 31 ≤ a.toInt / 2 ^ sh.toNat := by rw [Int.le_ediv_iff_mul_le hpos]; nlinarith
  have hhi : a.toInt / 2 ^ sh.toNat < 2 ^ 31 := by rw [Int.ediv_lt_iff_lt_mul hpos]; nlinarith
  push_cast
  rw [Int.bmod_eq_of_le (by simpa using hlo) (by simpa using hhi)]

theorem aluSlt_eq (a b : Word) : aluSlt a b = if a.toInt < b.toInt then 1 else 0 := by
  unfold aluSlt condWord lessSignedCond
  by_cases h : a.toInt < b.toInt <;> simp [h]

/-- The zero divisor of R168 and R172. -/
theorem Word.toInt_eq_zero_iff (b : Word) : b.toInt = 0 ↔ b = 0 :=
  ⟨fun h => BitVec.eq_of_toInt_eq (by rw [h]; rfl), fun h => by rw [h]; rfl⟩

/-- The overflow pair of R168 and R172. -/
theorem Word.overflowPair_iff (a b : Word) :
    (a.toInt = -2 ^ 31 ∧ b.toInt = -1) ↔ (a = 0x80000000 ∧ b = 0xFFFFFFFF) :=
  ⟨fun h => ⟨BitVec.eq_of_toInt_eq (by rw [h.1]; rfl), BitVec.eq_of_toInt_eq (by rw [h.2]; rfl)⟩,
    fun h => by rw [h.1, h.2]; decide⟩

end Sys2Proof.Machine
end

