-- ==== Sys2Proof/Laws/SignExtension.lean ====
section
/-!
SUPPORT. The sign-extension unit as two's-complement widening (40_sign_extension_and_offset_assembly.md R140, R141).
-/

namespace Sys2Proof.Machine

/-- The unit widens the low `w` bits, for every field below `2^w` (R140, R141). -/
theorem signExtend_eq {field : Word} {w : Nat} (h1 : 1 ≤ w) (h32 : w ≤ 32) (hf : field.toNat < 2 ^ w) :
    signExtend field w = (field.setWidth w).signExtend 32 := by
  apply BitVec.eq_of_getLsbD_eq
  intro j hj
  have hhigh : ∀ i, w ≤ i → field.getLsbD i = false := fun i hi =>
    Nat.testBit_lt_two_pow (Nat.lt_of_lt_of_le hf (Nat.pow_le_pow_right (by decide) hi))
  have hones : ∀ i, i < 32 → (0xFFFFFFFF#32).getLsbD i = true := by decide
  rw [BitVec.getLsbD_signExtend, BitVec.getLsbD_setWidth, BitVec.msb_eq_getLsbD_last, BitVec.getLsbD_setWidth]
  by_cases hb : field.getLsbD (w - 1) = true
  · rw [signExtend, if_pos hb, BitVec.getLsbD_or, BitVec.getLsbD_shiftLeft]
    by_cases hjw : j < w
    · simp [hj, hjw]
    · simp [hj, hjw, hb, hones (j - w) (by omega), show w - 1 < w by omega]
  · rw [signExtend, if_neg hb]
    by_cases hjw : j < w
    · simp [hj, hjw]
    · rw [hhigh j (by omega)]
      simp [hj, hjw, hb]

/-- `sext_N` is two's-complement widening to 32 bits (R15). -/
theorem sext_eq {n : Nat} (h1 : 1 ≤ n) (h32 : n ≤ 32) (v : BitVec n) : sext v = v.signExtend 32 := by
  have hlt : (v.setWidth 32).toNat < 2 ^ n := by
    rw [BitVec.toNat_setWidth]
    exact Nat.lt_of_le_of_lt (Nat.mod_le ..) v.isLt
  rw [sext, signExtend_eq h1 h32 hlt, BitVec.setWidth_setWidth_of_le _ h32, BitVec.setWidth_eq]

theorem toInt_sext {n : Nat} (h1 : 1 ≤ n) (h32 : n ≤ 32) (v : BitVec n) : (sext v).toInt = v.toInt := by
  rw [sext_eq h1 h32, BitVec.toInt_signExtend_of_le h32]

theorem sext_eq_ofInt {n : Nat} (h1 : 1 ≤ n) (h32 : n ≤ 32) (v : BitVec n) : sext v = BitVec.ofInt 32 v.toInt := by
  rw [← toInt_sext h1 h32, BitVec.ofInt_toInt]

end Sys2Proof.Machine
end

