-- ==== Sys2Proof/Laws/Decode.lean ====
section
/-!
SUPPORT. The fields of an encoded word, the word rebuilt from its fields, the masks of the opcode table as fields, and the
inversion of `decode`.
-/

namespace Sys2Proof

/-! ### Words as numbers -/

variable (f7 : BitVec 7) (rs2 rs1 rd : Reg) (f3 : BitVec 3) (op : BitVec 7) (imm12 : BitVec 12) (imm20 : BitVec 20)

theorem rWord_toNat : (rWord f7 rs2 rs1 f3 rd op).toNat =
    f7.toNat * 2 ^ 25 + rs2.toNat * 2 ^ 20 + rs1.toNat * 2 ^ 15 + f3.toNat * 2 ^ 12 + rd.toNat * 2 ^ 7 + op.toNat := by
  change (f7 ++ rs2 ++ rs1 ++ f3 ++ rd ++ op).toNat = _
  simp only [BitVec.toNat_append]
  rw [← Nat.shiftLeft_add_eq_or_of_lt rs2.isLt, ← Nat.shiftLeft_add_eq_or_of_lt rs1.isLt,
    ← Nat.shiftLeft_add_eq_or_of_lt f3.isLt, ← Nat.shiftLeft_add_eq_or_of_lt rd.isLt,
    ← Nat.shiftLeft_add_eq_or_of_lt op.isLt]
  simp only [Nat.shiftLeft_eq]
  omega

theorem iWord_toNat : (iWord imm12 rs1 f3 rd op).toNat =
    imm12.toNat * 2 ^ 20 + rs1.toNat * 2 ^ 15 + f3.toNat * 2 ^ 12 + rd.toNat * 2 ^ 7 + op.toNat := by
  change (imm12 ++ rs1 ++ f3 ++ rd ++ op).toNat = _
  simp only [BitVec.toNat_append]
  rw [← Nat.shiftLeft_add_eq_or_of_lt rs1.isLt, ← Nat.shiftLeft_add_eq_or_of_lt f3.isLt,
    ← Nat.shiftLeft_add_eq_or_of_lt rd.isLt, ← Nat.shiftLeft_add_eq_or_of_lt op.isLt]
  simp only [Nat.shiftLeft_eq]
  omega

theorem uWord_toNat : (uWord imm20 rd op).toNat = imm20.toNat * 2 ^ 12 + rd.toNat * 2 ^ 7 + op.toNat := by
  change (imm20 ++ rd ++ op).toNat = _
  simp only [BitVec.toNat_append]
  rw [← Nat.shiftLeft_add_eq_or_of_lt rd.isLt, ← Nat.shiftLeft_add_eq_or_of_lt op.isLt]
  simp only [Nat.shiftLeft_eq]
  omega

/-- The S and SB formats are the R format with the fragments in the places of `rd` and `funct7` (R104, R105). -/
theorem sWord_eq_rWord (imm7 : BitVec 7) (imm5 : BitVec 5) : sWord imm7 rs2 rs1 f3 imm5 op = rWord imm7 rs2 rs1 f3 imm5 op :=
  rfl

/-! ### The fields of a built word -/

@[simp] theorem opcodeField_rWord : opcodeField (rWord f7 rs2 rs1 f3 rd op) = op := by
  apply BitVec.eq_of_toNat_eq
  rw [opcodeField, BitVec.extractLsb'_toNat, rWord_toNat, Nat.shiftRight_eq_div_pow]
  have := op.isLt; omega

@[simp] theorem rdField_rWord : rdField (rWord f7 rs2 rs1 f3 rd op) = rd := by
  apply BitVec.eq_of_toNat_eq
  rw [rdField, BitVec.extractLsb'_toNat, rWord_toNat, Nat.shiftRight_eq_div_pow]
  have := op.isLt; have := rd.isLt; omega

@[simp] theorem funct3Field_rWord : funct3Field (rWord f7 rs2 rs1 f3 rd op) = f3 := by
  apply BitVec.eq_of_toNat_eq
  rw [funct3Field, BitVec.extractLsb'_toNat, rWord_toNat, Nat.shiftRight_eq_div_pow]
  have := op.isLt; have := rd.isLt; have := f3.isLt; omega

@[simp] theorem rs1Field_rWord : rs1Field (rWord f7 rs2 rs1 f3 rd op) = rs1 := by
  apply BitVec.eq_of_toNat_eq
  rw [rs1Field, BitVec.extractLsb'_toNat, rWord_toNat, Nat.shiftRight_eq_div_pow]
  have := op.isLt; have := rd.isLt; have := f3.isLt; have := rs1.isLt; omega

@[simp] theorem rs2Field_rWord : rs2Field (rWord f7 rs2 rs1 f3 rd op) = rs2 := by
  apply BitVec.eq_of_toNat_eq
  rw [rs2Field, BitVec.extractLsb'_toNat, rWord_toNat, Nat.shiftRight_eq_div_pow]
  have := op.isLt; have := rd.isLt; have := f3.isLt; have := rs1.isLt; have := rs2.isLt; omega

@[simp] theorem funct7Field_rWord : funct7Field (rWord f7 rs2 rs1 f3 rd op) = f7 := by
  apply BitVec.eq_of_toNat_eq
  rw [funct7Field, BitVec.extractLsb'_toNat, rWord_toNat, Nat.shiftRight_eq_div_pow]
  have := op.isLt; have := rd.isLt; have := f3.isLt; have := rs1.isLt; have := rs2.isLt; have := f7.isLt; omega

@[simp] theorem imm5Field_rWord : imm5Field (rWord f7 rs2 rs1 f3 rd op) = rd := rdField_rWord ..

@[simp] theorem imm7Field_rWord : imm7Field (rWord f7 rs2 rs1 f3 rd op) = f7 := funct7Field_rWord ..

@[simp] theorem opcodeField_iWord : opcodeField (iWord imm12 rs1 f3 rd op) = op := by
  apply BitVec.eq_of_toNat_eq
  rw [opcodeField, BitVec.extractLsb'_toNat, iWord_toNat, Nat.shiftRight_eq_div_pow]
  have := op.isLt; omega

@[simp] theorem rdField_iWord : rdField (iWord imm12 rs1 f3 rd op) = rd := by
  apply BitVec.eq_of_toNat_eq
  rw [rdField, BitVec.extractLsb'_toNat, iWord_toNat, Nat.shiftRight_eq_div_pow]
  have := op.isLt; have := rd.isLt; omega

@[simp] theorem funct3Field_iWord : funct3Field (iWord imm12 rs1 f3 rd op) = f3 := by
  apply BitVec.eq_of_toNat_eq
  rw [funct3Field, BitVec.extractLsb'_toNat, iWord_toNat, Nat.shiftRight_eq_div_pow]
  have := op.isLt; have := rd.isLt; have := f3.isLt; omega

@[simp] theorem rs1Field_iWord : rs1Field (iWord imm12 rs1 f3 rd op) = rs1 := by
  apply BitVec.eq_of_toNat_eq
  rw [rs1Field, BitVec.extractLsb'_toNat, iWord_toNat, Nat.shiftRight_eq_div_pow]
  have := op.isLt; have := rd.isLt; have := f3.isLt; have := rs1.isLt; omega

@[simp] theorem imm12Field_iWord : imm12Field (iWord imm12 rs1 f3 rd op) = imm12 := by
  apply BitVec.eq_of_toNat_eq
  rw [imm12Field, BitVec.extractLsb'_toNat, iWord_toNat, Nat.shiftRight_eq_div_pow]
  have := op.isLt; have := rd.isLt; have := f3.isLt; have := rs1.isLt; have := imm12.isLt; omega

@[simp] theorem opcodeField_uWord : opcodeField (uWord imm20 rd op) = op := by
  apply BitVec.eq_of_toNat_eq
  rw [opcodeField, BitVec.extractLsb'_toNat, uWord_toNat, Nat.shiftRight_eq_div_pow]
  have := op.isLt; omega

@[simp] theorem rdField_uWord : rdField (uWord imm20 rd op) = rd := by
  apply BitVec.eq_of_toNat_eq
  rw [rdField, BitVec.extractLsb'_toNat, uWord_toNat, Nat.shiftRight_eq_div_pow]
  have := op.isLt; have := rd.isLt; omega

@[simp] theorem imm20Field_uWord : imm20Field (uWord imm20 rd op) = imm20 := by
  apply BitVec.eq_of_toNat_eq
  rw [imm20Field, BitVec.extractLsb'_toNat, uWord_toNat, Nat.shiftRight_eq_div_pow]
  have := op.isLt; have := rd.isLt; have := imm20.isLt; omega

/-! ### A word rebuilt from its fields -/

variable (raw : Word)

theorem rWord_fields : rWord (funct7Field raw) (rs2Field raw) (rs1Field raw) (funct3Field raw) (rdField raw)
    (opcodeField raw) = raw := by
  apply BitVec.eq_of_toNat_eq
  simp only [rWord_toNat, funct7Field, rs2Field, rs1Field, funct3Field, rdField, opcodeField, BitVec.extractLsb'_toNat,
    Nat.shiftRight_eq_div_pow]
  have := raw.isLt; omega

theorem iWord_fields : iWord (imm12Field raw) (rs1Field raw) (funct3Field raw) (rdField raw) (opcodeField raw) = raw := by
  apply BitVec.eq_of_toNat_eq
  simp only [iWord_toNat, imm12Field, rs1Field, funct3Field, rdField, opcodeField, BitVec.extractLsb'_toNat,
    Nat.shiftRight_eq_div_pow]
  have := raw.isLt; omega

theorem uWord_fields : uWord (imm20Field raw) (rdField raw) (opcodeField raw) = raw := by
  apply BitVec.eq_of_toNat_eq
  simp only [uWord_toNat, imm20Field, rdField, opcodeField, BitVec.extractLsb'_toNat, Nat.shiftRight_eq_div_pow]
  have := raw.isLt; omega

/-! ### The immediate of the record (R109) -/

/-- The decoder's immediate is the signed number in the field `imm12`. -/
theorem immI_eq : immI raw = BitVec.ofInt 32 (imm12Field raw).toInt :=
  Machine.sext_eq_ofInt (by decide) (by decide) (imm12Field raw)

/-- Sign extension keeps the bits it extends. -/
theorem imm12Of_sext (imm12 : BitVec 12) : imm12Of (Machine.sext imm12) = imm12 := by
  rw [imm12Of, Machine.sext_eq (by decide) (by decide)]
  apply BitVec.eq_of_getLsbD_eq
  intro j hj
  rw [BitVec.getLsbD_extractLsb', BitVec.getLsbD_signExtend]
  simp [hj, show j < 32 by omega]

@[simp] theorem imm12Of_immI : imm12Of (immI raw) = imm12Field raw := imm12Of_sext _

/-- An immediate that 12 bits can represent is the extension of its field (R110). -/
theorem sext_imm12Of {imm : Word} (h : Imm12Fits imm) : Machine.sext (imm12Of imm) = imm := by
  apply BitVec.eq_of_toInt_eq
  rw [Machine.toInt_sext (by decide) (by decide), imm12Of, BitVec.toInt_eq_toNat_cond, BitVec.extractLsb'_toNat]
  obtain ⟨h1, h2⟩ := h
  have := imm.isLt
  rw [BitVec.toInt_eq_toNat_cond] at h1 h2 ⊢
  simp only [Nat.shiftRight_zero]
  split at h1 <;> split <;> omega

/-- The immediate of an I-format word, where 12 bits can represent it. -/
theorem immI_iWord {imm : Word} (h : Imm12Fits imm) : immI (iWord (imm12Of imm) rs1 f3 rd op) = imm := by
  rw [immI, imm12Field_iWord, sext_imm12Of h]

/-- The low twelve bits of the immediate are the bits of the word from bit 20 on. -/
theorem getLsbD_immI {j : Nat} (hj : j < 12) : (immI raw).getLsbD j = raw.getLsbD (20 + j) := by
  rw [immI, Machine.sext_eq (by decide) (by decide), BitVec.getLsbD_signExtend, imm12Field, BitVec.getLsbD_extractLsb']
  simp [hj, show j < 32 by omega]

/-- The bits above bit 4 of the immediate are the field `funct7` of the word (R103, R114). -/
theorem immHigh_immI : immHigh (immI raw) = funct7Field raw := by
  apply BitVec.eq_of_getLsbD_eq
  intro j hj
  rw [immHigh, funct7Field, BitVec.getLsbD_extractLsb', BitVec.getLsbD_extractLsb', getLsbD_immI raw (by omega),
    show 20 + (5 + j) = 25 + j by omega]

/-- The low five bits of the immediate are the field `rs2` of the word (R103, R180). -/
theorem immLow_immI : immLow (immI raw) = rs2Field raw := by
  apply BitVec.eq_of_getLsbD_eq
  intro j hj
  rw [immLow, rs2Field, BitVec.getLsbD_extractLsb', BitVec.getLsbD_extractLsb', Nat.zero_add, getLsbD_immI raw (by omega)]

/-- A record keeps the word it was decoded from (R109). -/
theorem raw_of_decodeRecord {record : Record} (h : decodeRecord raw = some record) : record.raw = raw := by
  unfold decodeRecord at h
  split at h <;> first | (cases h; rfl) | cases h

/-! ### The masks of R112 as fields -/

theorem and_mask_rType : raw &&& 0xFE00707F = rWord (funct7Field raw) 0 0 (funct3Field raw) 0 (opcodeField raw) := by
  apply BitVec.eq_of_getLsbD_eq
  intro j hj
  change _ = (funct7Field raw ++ (0 : Reg) ++ (0 : Reg) ++ funct3Field raw ++ (0 : Reg) ++ opcodeField raw).getLsbD j
  simp only [BitVec.getLsbD_append, BitVec.getLsbD_and, funct7Field, funct3Field, opcodeField, BitVec.getLsbD_extractLsb']
  interval_cases j <;> simp

theorem and_mask_funct3 : raw &&& 0x0000707F = rWord 0 0 0 (funct3Field raw) 0 (opcodeField raw) := by
  apply BitVec.eq_of_getLsbD_eq
  intro j hj
  change _ = ((0 : BitVec 7) ++ (0 : Reg) ++ (0 : Reg) ++ funct3Field raw ++ (0 : Reg) ++ opcodeField raw).getLsbD j
  simp only [BitVec.getLsbD_append, BitVec.getLsbD_and, funct3Field, opcodeField, BitVec.getLsbD_extractLsb']
  interval_cases j <;> simp

theorem and_mask_opcode : raw &&& 0x0000007F = rWord 0 0 0 0 0 (opcodeField raw) := by
  apply BitVec.eq_of_getLsbD_eq
  intro j hj
  change _ = ((0 : BitVec 7) ++ (0 : Reg) ++ (0 : Reg) ++ (0 : BitVec 3) ++ (0 : Reg) ++ opcodeField raw).getLsbD j
  simp only [BitVec.getLsbD_append, BitVec.getLsbD_and, opcodeField, BitVec.getLsbD_extractLsb']
  interval_cases j <;> simp

/-! ### What a matched row says of the fields (R112) -/

theorem fields_of_mask_rType {raw : Word} {f7 : BitVec 7} {f3 : BitVec 3} {op : BitVec 7}
    (h : raw &&& 0xFE00707F = rWord f7 0 0 f3 0 op) :
    opcodeField raw = op ∧ funct3Field raw = f3 ∧ funct7Field raw = f7 := by
  rw [and_mask_rType] at h
  exact ⟨by simpa using congrArg opcodeField h, by simpa using congrArg funct3Field h, by simpa using congrArg funct7Field h⟩

theorem fields_of_mask_funct3 {raw : Word} {f3 : BitVec 3} {op : BitVec 7}
    (h : raw &&& 0x0000707F = rWord 0 0 0 f3 0 op) : opcodeField raw = op ∧ funct3Field raw = f3 := by
  rw [and_mask_funct3] at h
  exact ⟨by simpa using congrArg opcodeField h, by simpa using congrArg funct3Field h⟩

theorem fields_of_mask_opcode {raw : Word} {op : BitVec 7} (h : raw &&& 0x0000007F = rWord 0 0 0 0 0 op) :
    opcodeField raw = op := by
  rw [and_mask_opcode] at h
  simpa using congrArg opcodeField h

/-! ### What decoding can answer -/

theorem decode_ok_iff {cfg : Config} {raw : Word} {i : Instr} :
    decode cfg raw = .ok i ↔ ∃ record, decodeRecord raw = some record ∧ select cfg record = some i := by
  unfold decode
  split
  · simp_all
  · split <;> simp_all

theorem decode_invalidOpcode_iff {cfg : Config} {raw raw' : Word} :
    decode cfg raw = .error (.invalidOpcode raw') ↔ raw' = raw ∧ decodeRecord raw = none := by
  unfold decode
  split
  · simp_all [eq_comm]
  · split <;> simp_all

theorem decode_invalidInstruction_iff {cfg : Config} {raw raw' : Word} :
    decode cfg raw = .error (.invalidInstruction raw') ↔
      raw' = raw ∧ ∃ record, decodeRecord raw = some record ∧ select cfg record = none := by
  unfold decode
  cases hr : decodeRecord raw with
  | none => simp
  | some record =>
    cases hs : select cfg record with
    | none => simp [hs, raw_of_decodeRecord raw hr, eq_comm]
    | some i => simp [hs]

/-! ### Decoding, opcode by opcode: what the selection answers (R108, R111) -/

section
variable {cfg : Config} {raw : Word}

/-- A word with a record is decoded by the selection alone. -/
theorem decode_of_record {record : Record} (h : decodeRecord raw = some record) :
    decode cfg raw = (select cfg record).elim (.error (.invalidInstruction raw)) .ok := by
  rw [decode, h]
  cases hs : select cfg record with
  | none => simp only [hs, raw_of_decodeRecord raw h, Option.elim_none]
  | some i => simp only [hs, Option.elim_some]

theorem decode_arith (h : opcodeField raw = 0x33) : decode cfg raw =
    (selectArith (rdField raw) (rs1Field raw) (rs2Field raw) (funct3Field raw) (funct7Field raw)).elim
      (.error (.invalidInstruction raw)) .ok := by
  rw [decode_of_record (record := .rType raw (rdField raw) (rs1Field raw) (rs2Field raw) (funct3Field raw) (funct7Field raw))
    (by simp only [decodeRecord, h]; rfl), select, h]; rfl

theorem decode_custom (h : opcodeField raw = 0x2b) : decode cfg raw =
    (selectCustom cfg (rdField raw) (rs1Field raw) (rs2Field raw) (funct3Field raw) (funct7Field raw)).elim
      (.error (.invalidInstruction raw)) .ok := by
  rw [decode_of_record (record := .rType raw (rdField raw) (rs1Field raw) (rs2Field raw) (funct3Field raw) (funct7Field raw))
    (by simp only [decodeRecord, h]; rfl), select, h]; rfl

theorem decode_arithImm (h : opcodeField raw = 0x13) : decode cfg raw =
    (selectArithImm (rdField raw) (rs1Field raw) (funct3Field raw) (immI raw)).elim
      (.error (.invalidInstruction raw)) .ok := by
  rw [decode_of_record (record := .iType raw (rdField raw) (rs1Field raw) (funct3Field raw) (.extended (immI raw)))
    (by simp only [decodeRecord, h]; rfl), select, h]; rfl

theorem decode_load (h : opcodeField raw = 0x03) : decode cfg raw =
    (selectLoad (rdField raw) (rs1Field raw) (funct3Field raw) (immI raw)).elim
      (.error (.invalidInstruction raw)) .ok := by
  rw [decode_of_record (record := .iType raw (rdField raw) (rs1Field raw) (funct3Field raw) (.extended (immI raw)))
    (by simp only [decodeRecord, h]; rfl), select, h]; rfl

theorem decode_store (h : opcodeField raw = 0x23) : decode cfg raw =
    (selectStore (rs1Field raw) (rs2Field raw) (funct3Field raw) (imm5Field raw) (imm7Field raw)).elim
      (.error (.invalidInstruction raw)) .ok :=
  decode_of_record (record := .sType raw (rs1Field raw) (rs2Field raw) (funct3Field raw) (imm5Field raw) (imm7Field raw))
    (by simp only [decodeRecord, h]; rfl)

theorem decode_branch (h : opcodeField raw = 0x63) : decode cfg raw =
    (selectBranch (rs1Field raw) (rs2Field raw) (funct3Field raw) (imm5Field raw) (imm7Field raw)).elim
      (.error (.invalidInstruction raw)) .ok :=
  decode_of_record (record := .sbType raw (rs1Field raw) (rs2Field raw) (funct3Field raw) (imm5Field raw) (imm7Field raw))
    (by simp only [decodeRecord, h]; rfl)

theorem decode_lui (h : opcodeField raw = 0x37) :
    decode cfg raw = .ok (.lui (rdField raw) (imm20Field raw)) :=
  decode_of_record (record := .uType raw (rdField raw) (imm20Field raw))
    (by simp only [decodeRecord, h]; rfl)

theorem decode_jal (h : opcodeField raw = 0x6F) :
    decode cfg raw = .ok (.jal (rdField raw) (imm20Field raw)) :=
  decode_of_record (record := .ujType raw (rdField raw) (imm20Field raw))
    (by simp only [decodeRecord, h]; rfl)

theorem decode_ecall (h : opcodeField raw = 0x73) :
    decode cfg raw = .ok (.ecall (rdField raw) (rs1Field raw) (funct3Field raw) (imm12Field raw)) :=
  decode_of_record (record := .iType raw (rdField raw) (rs1Field raw) (funct3Field raw) (.unextended (imm12Field raw)))
    (by simp only [decodeRecord, h]; rfl)

end

end Sys2Proof
end

