-- ==== Sys2Proof/Laws/Memory.lean ====
section
/-!
SUPPORT. The laws of memory (20_memory.md R62 to R65): read after write, the canonical form, and the little-endian
bytes of a wider access.
-/

namespace Sys2Proof

theorem Width.bytes_le (w : Width) : w.bytes ≤ 4 := by cases w <;> decide

theorem Width.bytes_pos (w : Width) : 0 < w.bytes := by cases w <;> decide

end Sys2Proof

namespace Sys2Proof.Machine

/-! ### One byte -/

@[simp] theorem Memory.read_nil (a : Nat) : Memory.read [] a = 0 := rfl

theorem Memory.read_cons (c : Host.Cell) (m : Memory) (a : Nat) :
    Memory.read (c :: m) a = if c.1 = a then c.2 else Memory.read m a := rfl

/-- An address below every listed one reads 0. -/
theorem Memory.read_below {m : Memory} {a : Nat} (h : ∀ c ∈ m, a < c.1) : Memory.read m a = 0 := by
  induction m with
  | nil => rfl
  | cons c m ih =>
    have hc := h c (by simp)
    rw [Memory.read_cons, if_neg (by omega), ih fun d hd => h d (by simp [hd])]

theorem CanonicalCells.tail {c : Host.Cell} {m : Memory} (h : CanonicalCells (c :: m)) : CanonicalCells m :=
  ⟨(List.pairwise_cons.mp h.1).2, fun d hd => h.2 d (by simp [hd])⟩

/-- Read after write to the same address (R65). -/
theorem Memory.read_write_same {m : Memory} (h : m.wf) (a : Nat) (b : Byte) : (m.write a b).read a = b := by
  induction m with
  | nil =>
    unfold Memory.write
    split
    next hb => rw [hb, Memory.read_nil]
    next => rw [Memory.read_cons, if_pos rfl]
  | cons c m ih =>
    obtain ⟨k, v⟩ := c
    have hlt := (List.pairwise_cons.mp h.1).1
    unfold Memory.write
    split
    · by_cases hb : b = 0
      · rw [if_pos hb, Memory.read_cons, if_neg (by simp; omega), hb]
        exact Memory.read_below fun d hd => by have := hlt d hd; simp at this; omega
      · rw [if_neg hb, Memory.read_cons, if_pos rfl]
    · split
      · by_cases hb : b = 0
        · rw [if_pos hb, hb]
          exact Memory.read_below fun d hd => by have := hlt d hd; simp at this; omega
        · rw [if_neg hb, Memory.read_cons, if_pos rfl]
      · rw [Memory.read_cons, if_neg (by simpa), ih (CanonicalCells.tail h)]

/-- A write leaves every other address alone (R65). -/
theorem Memory.read_write_other {m : Memory} (h : m.wf) {a a' : Nat} (b : Byte) (hne : a' ≠ a) :
    (m.write a b).read a' = m.read a' := by
  induction m with
  | nil =>
    unfold Memory.write
    split
    next => rfl
    next => rw [Memory.read_cons, if_neg hne.symm]
  | cons c m ih =>
    obtain ⟨k, v⟩ := c
    have hlt := (List.pairwise_cons.mp h.1).1
    unfold Memory.write
    split
    · by_cases hb : b = 0
      · rw [if_pos hb]
      · rw [if_neg hb, Memory.read_cons, if_neg (by simpa using hne.symm)]
    · split
      next _ hk =>
        by_cases hb : b = 0
        · rw [if_pos hb, Memory.read_cons, if_neg (by simp; omega)]
        · rw [if_neg hb, Memory.read_cons, Memory.read_cons, if_neg (by simpa using hne.symm),
            if_neg (by simp; omega)]
      · simp only [Memory.read_cons, ih (CanonicalCells.tail h)]

/-- The cells a write leaves are old ones or the written one. -/
theorem Memory.mem_write {m : Memory} {a : Nat} {b : Byte} {c : Host.Cell} (h : c ∈ m.write a b) :
    c ∈ m ∨ (c = (a, b) ∧ b ≠ 0) := by
  induction m with
  | nil =>
    unfold Memory.write at h
    split at h
    · cases h
    · exact .inr ⟨by simpa using h, by assumption⟩
  | cons d m ih =>
    obtain ⟨k, v⟩ := d
    unfold Memory.write at h
    split at h
    · split at h
      · exact .inl h
      · rcases List.mem_cons.mp h with h | h
        · exact .inr ⟨h, by assumption⟩
        · exact .inl h
    · split at h
      · split at h
        · exact .inl (by simp [h])
        · rcases List.mem_cons.mp h with h | h
          · exact .inr ⟨h, by assumption⟩
          · exact .inl (by simp [h])
      · rcases List.mem_cons.mp h with h | h
        · exact .inl (by simp [h])
        · rcases ih h with h | h
          · exact .inl (by simp [h])
          · exact .inr h

/-- A write keeps the canonical form. -/
theorem Memory.wf_write {m : Memory} (h : m.wf) (a : Nat) (b : Byte) : (m.write a b).wf := by
  refine ⟨?_, fun c hc => ?_⟩
  · induction m with
    | nil => unfold Memory.write; split <;> simp
    | cons d m ih =>
      obtain ⟨k, v⟩ := d
      have hp := List.pairwise_cons.mp h.1
      unfold Memory.write
      split
      · split
        · exact h.1
        · refine List.pairwise_cons.mpr ⟨fun c hc => ?_, h.1⟩
          rcases List.mem_cons.mp hc with rfl | hc
          · simpa
          · have := hp.1 c hc; simp at this; simp; omega
      · split
        next _ hk =>
          split
          · exact hp.2
          · exact List.pairwise_cons.mpr ⟨fun c hc => by have := hp.1 c hc; simp at this; simp; omega, hp.2⟩
        next hlt hne =>
          refine List.pairwise_cons.mpr ⟨fun c hc => ?_, ih (CanonicalCells.tail h)⟩
          rcases Memory.mem_write hc with hc | ⟨rfl, _⟩
          · exact hp.1 c hc
          · simp; omega
  · rcases Memory.mem_write hc with hc | ⟨rfl, hb⟩
    · exact h.2 c hc
    · exact hb

/-- A write below `size` keeps every cell below `size`. -/
theorem Memory.below_write {m : Memory} {size a : Nat} (h : CellsBelow size m) (ha : a < size) (b : Byte) :
    CellsBelow size (m.write a b) := by
  intro c hc
  rcases Memory.mem_write hc with hc | ⟨rfl, _⟩
  · exact h c hc
  · exact ha

/-- Canonical memories that read alike are equal. -/
theorem Memory.ext_read {m m' : Memory} (h : m.wf) (h' : m'.wf) (heq : ∀ a, m.read a = m'.read a) : m = m' := by
  induction m generalizing m' with
  | nil =>
    cases m' with
    | nil => rfl
    | cons c m' =>
      have := heq c.1
      rw [Memory.read_cons, if_pos rfl] at this
      exact absurd this.symm (h'.2 c (by simp))
  | cons c m ih =>
    have hp := (List.pairwise_cons.mp h.1).1
    cases m' with
    | nil =>
      have := heq c.1
      rw [Memory.read_cons, if_pos rfl] at this
      exact absurd this (h.2 c (by simp))
    | cons c' m' =>
      have hp' := (List.pairwise_cons.mp h'.1).1
      have hkey : c.1 = c'.1 := by
        rcases Nat.lt_trichotomy c.1 c'.1 with hlt | heq' | hgt
        · have := heq c.1
          rw [Memory.read_cons, if_pos rfl, Memory.read_below (m := c' :: m')] at this
          · exact absurd this (h.2 c (by simp))
          · intro d hd
            rcases List.mem_cons.mp hd with rfl | hd
            · exact hlt
            · exact Nat.lt_trans hlt (hp' d hd)
        · exact heq'
        · have := heq c'.1
          rw [Memory.read_cons c', if_pos rfl, Memory.read_below (m := c :: m)] at this
          · exact absurd this.symm (h'.2 c' (by simp))
          · intro d hd
            rcases List.mem_cons.mp hd with rfl | hd
            · exact hgt
            · exact Nat.lt_trans hgt (hp d hd)
      have hval : c.2 = c'.2 := by
        have := heq c.1
        rwa [Memory.read_cons, if_pos rfl, Memory.read_cons, if_pos hkey.symm] at this
      have htail : m = m' := by
        refine ih (CanonicalCells.tail h) (CanonicalCells.tail h') fun a => ?_
        by_cases ha : c.1 = a
        · subst ha
          rw [Memory.read_below fun d hd => hp d hd, Memory.read_below fun d hd => hkey ▸ hp' d hd]
        · have := heq a
          rwa [Memory.read_cons, if_neg ha, Memory.read_cons, if_neg (hkey ▸ ha)] at this
      rw [Prod.ext hkey hval, htail]

/-! ### Several bytes -/

theorem Memory.wf_writeBytes {m : Memory} (h : m.wf) (a : Nat) (v : Word) (n : Nat) : (m.writeBytes a v n).wf := by
  induction n with
  | zero => exact h
  | succ n ih => exact Memory.wf_write ih _ _

theorem Memory.below_writeBytes {m : Memory} {size a n : Nat} (h : CellsBelow size m) (ha : a + n ≤ size) (v : Word) :
    CellsBelow size (m.writeBytes a v n) := by
  induction n with
  | zero => exact h
  | succ n ih => exact Memory.below_write (ih (by omega)) (by omega) _

/-- A written byte reads as its byte of the value (R62, R65). -/
theorem Memory.read_writeBytes_inside {m : Memory} (h : m.wf) (a : Nat) (v : Word) {n k : Nat} (hk : k < n) :
    (m.writeBytes a v n).read (a + k) = byteOf v k := by
  induction n with
  | zero => omega
  | succ n ih =>
    rw [Memory.writeBytes]
    by_cases he : k = n
    · subst he; exact Memory.read_write_same (Memory.wf_writeBytes h a v k) _ _
    · rw [Memory.read_write_other (Memory.wf_writeBytes h a v n) _ (by omega), ih (by omega)]

/-- No byte outside the written ones changes (R65). -/
theorem Memory.read_writeBytes_outside {m : Memory} (h : m.wf) {a x : Nat} (v : Word) {n : Nat}
    (hx : x < a ∨ a + n ≤ x) : (m.writeBytes a v n).read x = m.read x := by
  induction n with
  | zero => rfl
  | succ n ih =>
    rw [Memory.writeBytes, Memory.read_write_other (Memory.wf_writeBytes h a v n) _ (by omega), ih (by omega)]

/-- A multi-byte read depends on its bytes alone. -/
theorem Memory.readBytes_congr {m m' : Memory} {a n : Nat} (h : ∀ k, k < n → m.read (a + k) = m'.read (a + k)) :
    m.readBytes a n = m'.readBytes a n := by
  induction n with
  | zero => rfl
  | succ n ih => rw [Memory.readBytes, Memory.readBytes, ih fun k hk => h k (by omega), h n (by omega)]

/-- Bit `j` of a multi-byte read is bit `j % 8` of byte `j / 8` (R62). -/
theorem Memory.getLsbD_readBytes (m : Memory) (a : Nat) {n j : Nat} (hn : n ≤ 4) :
    (m.readBytes a n).getLsbD j = (decide (j < 8 * n) && (m.read (a + j / 8)).getLsbD (j % 8)) := by
  induction n with
  | zero => simp [Memory.readBytes]
  | succ n ih =>
    rw [Memory.readBytes, BitVec.getLsbD_or, ih (by omega), BitVec.getLsbD_shiftLeft, BitVec.getLsbD_setWidth]
    by_cases h1 : j < 8 * n
    · simp [h1, show j < 8 * (n + 1) by omega]
    · by_cases h2 : j < 8 * (n + 1)
      · have hq : j / 8 = n := by omega
        have hr : j - 8 * n = j % 8 := by omega
        simp [h1, h2, show j < 32 by omega, hq, hr, show j % 8 < 32 by omega]
      · have : 8 ≤ j - 8 * n := by omega
        simp [h1, h2, BitVec.getLsbD_of_ge _ _ this]

/-- Reading back a value just written gives its low `8n` bits (R64, R65). -/
theorem Memory.readBytes_writeBytes {m : Memory} (h : m.wf) (a : Nat) (v : Word) {n : Nat} (hn : n ≤ 4) :
    (m.writeBytes a v n).readBytes a n = v &&& BitVec.ofNat 32 (2 ^ (8 * n) - 1) := by
  apply BitVec.eq_of_getLsbD_eq
  intro j hj
  rw [Memory.getLsbD_readBytes _ _ hn, BitVec.getLsbD_and, BitVec.getLsbD_ofNat]
  by_cases hlt : j < 8 * n
  · rw [Memory.read_writeBytes_inside h a v (by omega : j / 8 < n), byteOf, BitVec.getLsbD_extractLsb',
      show 8 * (j / 8) + j % 8 = j by omega]
    simp [hlt, hj, show j % 8 < 8 by omega, Nat.testBit_two_pow_sub_one]
  · simp [hlt, hj, Nat.testBit_two_pow_sub_one]

theorem Memory.readBytes_byte (m : Memory) (a : Nat) : m.readBytes a 1 = (m.read a).setWidth 32 := by
  simp [Memory.readBytes]

/-- A half-word read is its two bytes, the first the least significant (R62). -/
theorem Memory.readBytes_half (m : Memory) (a : Nat) :
    m.readBytes a 2 = (m.read (a + 1) ++ m.read a).setWidth 32 := by
  apply BitVec.eq_of_getLsbD_eq
  intro j hj
  rw [Memory.getLsbD_readBytes _ _ (by decide), BitVec.getLsbD_setWidth, BitVec.getLsbD_append]
  by_cases h8 : j < 8
  · simp [h8, hj, Nat.div_eq_of_lt h8, Nat.mod_eq_of_lt h8]; omega
  · by_cases h16 : j < 16
    · simp [h8, h16, hj, show j / 8 = 1 by omega, show j % 8 = j - 8 by omega]
    · simp [h8, h16]
      intro; rw [BitVec.getLsbD_of_ge]; omega

/-- A word read is the little-endian word of its four bytes (R62, R100). -/
theorem Memory.readBytes_word (m : Memory) (a : Nat) :
    m.readBytes a 4 = wordOfBytes (m.read a) (m.read (a + 1)) (m.read (a + 2)) (m.read (a + 3)) := by
  apply BitVec.eq_of_getLsbD_eq
  intro j hj
  rw [Memory.getLsbD_readBytes _ _ (Nat.le_refl 4)]
  change _ = (m.read (a + 3) ++ m.read (a + 2) ++ m.read (a + 1) ++ m.read a).getLsbD j
  simp only [BitVec.getLsbD_append]
  have hq : j / 8 = 0 ∨ j / 8 = 1 ∨ j / 8 = 2 ∨ j / 8 = 3 := by omega
  rcases hq with h | h | h | h
  · simp [h, hj, show j < 8 by omega, show j % 8 = j by omega]
  · simp [h, hj, show ¬ j < 8 by omega, show j - 8 < 8 by omega, show j % 8 = j - 8 by omega]
  · simp [h, hj, show ¬ j < 8 by omega, show ¬ j - 8 < 8 by omega, show j - 8 - 8 < 8 by omega,
      show j % 8 = j - 8 - 8 by omega]
  · simp [h, hj, show ¬ j < 8 by omega, show ¬ j - 8 < 8 by omega, show ¬ j - 8 - 8 < 8 by omega,
      show j % 8 = j - 8 - 8 - 8 by omega]

/-! ### The memory port -/

theorem State.inBounds_iff (s : State) (addr : Word) (w : Width) :
    s.inBounds addr w = true ↔ addr.toNat + w.bytes ≤ s.cfg.memSize := by
  simp [State.inBounds]

/-- `MemRead` answers exactly in bounds (R63, R64). -/
theorem State.memRead_eq (s : State) (addr : Word) (w : Width) (h : addr.toNat + w.bytes ≤ s.cfg.memSize) :
    s.memRead addr w = some (s.mem.readBytes addr.toNat w.bytes) := by
  rw [State.memRead, if_pos ((s.inBounds_iff addr w).mpr h)]

theorem State.memRead_none (s : State) (addr : Word) (w : Width) (h : s.cfg.memSize < addr.toNat + w.bytes) :
    s.memRead addr w = none := by
  rw [State.memRead, if_neg (by rw [s.inBounds_iff]; omega)]

/-- `MemWrite` answers exactly in bounds (R63, R65). -/
theorem State.memWrite_eq (s : State) (addr : Word) (w : Width) (v : Word)
    (h : addr.toNat + w.bytes ≤ s.cfg.memSize) :
    s.memWrite addr w v = some { s with mem := s.mem.writeBytes addr.toNat v w.bytes } := by
  rw [State.memWrite, if_pos ((s.inBounds_iff addr w).mpr h)]

theorem State.memWrite_none (s : State) (addr : Word) (w : Width) (v : Word)
    (h : s.cfg.memSize < addr.toNat + w.bytes) : s.memWrite addr w v = none := by
  rw [State.memWrite, if_neg (by rw [s.inBounds_iff]; omega)]

end Sys2Proof.Machine
end

