-- ==== Sys2Proof/Laws/Operands.lean ====
section
/-!
SUPPORT. The store offset as the number it stands for (R145), and the string scan (R248).
-/

namespace Sys2Proof.Machine

theorem storeOffset_eq (imm5 : BitVec 5) (imm7 : BitVec 7) :
    storeOffset imm5 imm7 = BitVec.ofInt 32 (imm7 ++ imm5).toInt :=
  sext_eq_ofInt (by decide) (by decide) (imm7 ++ imm5)

/-! ### The string scan -/

theorem Memory.stringFrom_zero (m : Memory) (fuel p : Nat) (h : m.read p = 0) : m.stringFrom (fuel + 1) p = [] := by
  rw [Memory.stringFrom, if_pos h]

theorem Memory.stringFrom_cons (m : Memory) (fuel p : Nat) (h : m.read p ≠ 0) :
    m.stringFrom (fuel + 1) p = m.read p :: m.stringFrom fuel (p + 1) := by
  rw [Memory.stringFrom, if_neg h]

theorem Memory.length_stringFrom_le (m : Memory) (fuel p : Nat) : (m.stringFrom fuel p).length ≤ fuel := by
  induction fuel generalizing p with
  | zero => exact Nat.le_refl 0
  | succ fuel ih =>
    by_cases h : m.read p = 0
    · rw [m.stringFrom_zero fuel p h]; exact Nat.zero_le _
    · rw [m.stringFrom_cons fuel p h]; exact Nat.succ_le_succ (ih (p + 1))

/-- Every byte of the string is the memory byte at its place, and is not zero. -/
theorem Memory.getElem_stringFrom (m : Memory) (fuel p k : Nat) (h : k < (m.stringFrom fuel p).length) :
    (m.stringFrom fuel p)[k] ≠ 0 ∧ m.read (p + k) = (m.stringFrom fuel p)[k] := by
  induction fuel generalizing p k with
  | zero => exact absurd h (Nat.not_lt_zero k)
  | succ fuel ih =>
    by_cases hz : m.read p = 0
    · rw [m.stringFrom_zero fuel p hz] at h; exact absurd h (Nat.not_lt_zero k)
    · simp only [m.stringFrom_cons fuel p hz] at h ⊢
      cases k with
      | zero => exact ⟨hz, rfl⟩
      | succ k =>
        have := ih (p + 1) k (Nat.lt_of_succ_lt_succ h)
        rwa [show p + 1 + k = p + (k + 1) by omega] at this

/-- The string ends at a zero byte unless the scan ran to its bound. -/
theorem Memory.stringFrom_end (m : Memory) (fuel p : Nat) :
    (m.stringFrom fuel p).length = fuel ∨ m.read (p + (m.stringFrom fuel p).length) = 0 := by
  induction fuel generalizing p with
  | zero => exact .inl rfl
  | succ fuel ih =>
    by_cases hz : m.read p = 0
    · rw [m.stringFrom_zero fuel p hz]; exact .inr hz
    · rw [m.stringFrom_cons fuel p hz, List.length_cons]
      rcases ih (p + 1) with h | h
      · exact .inl (by rw [h])
      · refine .inr ?_
        rwa [show p + 1 + (m.stringFrom fuel (p + 1)).length = p + ((m.stringFrom fuel (p + 1)).length + 1) by omega] at h

/-- No byte of the string is zero (R19, R248). -/
theorem State.cstring_ne_zero (s : State) (a : Word) : ∀ b ∈ s.cstring a, b ≠ 0 := by
  intro b hb
  obtain ⟨k, hk, rfl⟩ := List.getElem_of_mem hb
  exact (Memory.getElem_stringFrom _ _ _ k hk).1

end Sys2Proof.Machine
end

