-- ==== Sys2Proof/Laws/State.lean ====
section
/-!
SUPPORT. One lemma per field per update of the state, true by rfl, and the register-file laws, so that no proof unfolds a
record update.
-/

namespace Sys2Proof.Machine

variable (s t : State) (i j : Reg) (v w : Word) (e : Event) (k : FatalKind)

@[simp] theorem State.writeReg_cfg : (s.writeReg i v).cfg = s.cfg := rfl
@[simp] theorem State.writeReg_pc : (s.writeReg i v).pc = s.pc := rfl
@[simp] theorem State.writeReg_mem : (s.writeReg i v).mem = s.mem := rfl
@[simp] theorem State.writeReg_status : (s.writeReg i v).status = s.status := rfl
@[simp] theorem State.writeReg_out : (s.writeReg i v).out = s.out := rfl

@[simp] theorem State.setPc_cfg : (s.setPc v).cfg = s.cfg := rfl
@[simp] theorem State.setPc_regs : (s.setPc v).regs = s.regs := rfl
@[simp] theorem State.setPc_pc : (s.setPc v).pc = v := rfl
@[simp] theorem State.setPc_mem : (s.setPc v).mem = s.mem := rfl
@[simp] theorem State.setPc_status : (s.setPc v).status = s.status := rfl
@[simp] theorem State.setPc_out : (s.setPc v).out = s.out := rfl

@[simp] theorem State.advancePc_cfg : s.advancePc.cfg = s.cfg := rfl
@[simp] theorem State.advancePc_regs : s.advancePc.regs = s.regs := rfl
@[simp] theorem State.advancePc_pc : s.advancePc.pc = s.pc + 4 := rfl
@[simp] theorem State.advancePc_mem : s.advancePc.mem = s.mem := rfl
@[simp] theorem State.advancePc_status : s.advancePc.status = s.status := rfl
@[simp] theorem State.advancePc_out : s.advancePc.out = s.out := rfl

@[simp] theorem State.writeBack_cfg : (s.writeBack i v).cfg = s.cfg := rfl
@[simp] theorem State.writeBack_pc : (s.writeBack i v).pc = s.pc + 4 := rfl
@[simp] theorem State.writeBack_mem : (s.writeBack i v).mem = s.mem := rfl
@[simp] theorem State.writeBack_status : (s.writeBack i v).status = s.status := rfl
@[simp] theorem State.writeBack_out : (s.writeBack i v).out = s.out := rfl

@[simp] theorem State.emit_cfg : (s.emit e).cfg = s.cfg := rfl
@[simp] theorem State.emit_regs : (s.emit e).regs = s.regs := rfl
@[simp] theorem State.emit_pc : (s.emit e).pc = s.pc := rfl
@[simp] theorem State.emit_mem : (s.emit e).mem = s.mem := rfl
@[simp] theorem State.emit_status : (s.emit e).status = s.status := rfl
@[simp] theorem State.emit_out : (s.emit e).out = s.out ++ [e] := rfl

@[simp] theorem State.raise_cfg : (s.raise k v).cfg = s.cfg := rfl
@[simp] theorem State.raise_regs : (s.raise k v).regs = s.regs := rfl
@[simp] theorem State.raise_pc : (s.raise k v).pc = s.pc := rfl
@[simp] theorem State.raise_mem : (s.raise k v).mem = s.mem := rfl
@[simp] theorem State.raise_status : (s.raise k v).status = .fatal k v := rfl
@[simp] theorem State.raise_out : (s.raise k v).out = s.out ++ [.diagnostic k v] := rfl

@[simp] theorem State.haltExited_cfg : s.haltExited.cfg = s.cfg := rfl
@[simp] theorem State.haltExited_regs : s.haltExited.regs = s.regs := rfl
@[simp] theorem State.haltExited_pc : s.haltExited.pc = s.pc := rfl
@[simp] theorem State.haltExited_mem : s.haltExited.mem = s.mem := rfl
@[simp] theorem State.haltExited_status : s.haltExited.status = .exited := rfl
@[simp] theorem State.haltExited_out : s.haltExited.out = s.out := rfl

@[simp] theorem State.withFetchWord_cfg (n m : Nat) : (s.withFetchWord n m).cfg = s.cfg := rfl
@[simp] theorem State.withFetchWord_regs (n m : Nat) : (s.withFetchWord n m).regs = s.regs := rfl
@[simp] theorem State.withFetchWord_pc (n m : Nat) : (s.withFetchWord n m).pc = s.pc := rfl
@[simp] theorem State.withFetchWord_status (n m : Nat) : (s.withFetchWord n m).status = s.status := rfl
@[simp] theorem State.withFetchWord_out (n m : Nat) : (s.withFetchWord n m).out = s.out := rfl

variable (cfg : Config)

@[simp] theorem State.resetWith_cfg : (State.resetWith cfg).cfg = cfg := rfl
@[simp] theorem State.resetWith_regs : (State.resetWith cfg).regs = Vector.replicate 32 0 := rfl
@[simp] theorem State.resetWith_pc : (State.resetWith cfg).pc = cfg.resetPc := rfl
@[simp] theorem State.resetWith_mem : (State.resetWith cfg).mem = cfg.initMem := rfl
@[simp] theorem State.resetWith_status : (State.resetWith cfg).status = .running := rfl
@[simp] theorem State.resetWith_out : (State.resetWith cfg).out = [] := rfl

/-! ### What reads see after an update -/

/-- Reading a register depends on the parameters and the registers alone. -/
theorem State.readReg_congr {s t : State} (hc : t.cfg = s.cfg) (hr : t.regs = s.regs) :
    t.readReg i = s.readReg i := by
  cases s; cases t; cases hc; cases hr; rfl

@[simp] theorem State.readReg_setPc : (s.setPc v).readReg i = s.readReg i := State.readReg_congr i rfl rfl
@[simp] theorem State.readReg_advancePc : s.advancePc.readReg i = s.readReg i := State.readReg_congr i rfl rfl
@[simp] theorem State.readReg_emit : (s.emit e).readReg i = s.readReg i := State.readReg_congr i rfl rfl
@[simp] theorem State.readReg_raise : (s.raise k v).readReg i = s.readReg i := State.readReg_congr i rfl rfl
@[simp] theorem State.readReg_haltExited : s.haltExited.readReg i = s.readReg i := State.readReg_congr i rfl rfl

@[simp] theorem State.isHardZero_writeReg : (s.writeReg i v).isHardZero j = s.isHardZero j := rfl

theorem State.isHardZero_iff : s.isHardZero i = true ↔ s.cfg.x0Hardwired = true ∧ i = 0 := by
  simp [State.isHardZero]

/-- The written register reads the value, or 0 where it is the hard-wired one (R31, R32). -/
theorem State.readReg_writeReg_same :
    (s.writeReg i v).readReg i = if s.cfg.x0Hardwired = true ∧ i = 0 then 0 else v := by
  have hiff := s.isHardZero_iff i
  unfold State.readReg
  rw [State.isHardZero_writeReg]
  by_cases h : s.isHardZero i = true
  · rw [if_pos h, if_pos (hiff.mp h)]
  · rw [if_neg h, if_neg (mt hiff.mpr h)]
    simp [State.writeReg, h]

/-- Every other register reads as before (R32). -/
theorem State.readReg_writeReg_other (h : j ≠ i) : (s.writeReg i v).readReg j = s.readReg j := by
  have hne : i.toNat ≠ j.toNat := fun he => h (BitVec.eq_of_toNat_eq he.symm)
  unfold State.readReg
  rw [State.isHardZero_writeReg]
  simp only [State.writeReg]
  split
  · rfl
  · split
    · rfl
    · simp [hne]

theorem State.readReg_writeBack_same :
    (s.writeBack i v).readReg i = if s.cfg.x0Hardwired = true ∧ i = 0 then 0 else v := by
  rw [State.writeBack, State.readReg_advancePc, State.readReg_writeReg_same]

theorem State.readReg_writeBack_other (h : j ≠ i) : (s.writeBack i v).readReg j = s.readReg j := by
  rw [State.writeBack, State.readReg_advancePc, State.readReg_writeReg_other _ _ _ _ h]

/-- Every register is 0 at reset (R46). -/
@[simp] theorem State.readReg_resetWith : (State.resetWith cfg).readReg i = 0 := by
  simp [State.readReg]

end Sys2Proof.Machine
end

