-- ==== Sys2Proof/Laws/Exec.lean ====
section
/-!
SUPPORT. What an instruction and a step can do, said once: the inversion of `exec` and of `step`, which the proofs cite
instead of unfolding them.
-/

namespace Sys2Proof.Machine

/-! ### The results the claims speak of -/

/-- A write-back gives the register result of its value, with the pc advanced. -/
theorem regResult_writeBack (s : State) (rd : Reg) (v : Word) : RegResult s (s.writeBack rd v) rd v (s.pc + 4) :=
  ⟨s.readReg_writeBack_same rd v, fun r hr => s.readReg_writeBack_other rd r v hr, rfl, fun _ => rfl, rfl, rfl, rfl⟩

/-- A raise is the fatal halt of R262. -/
theorem fatalHalt_raise (s : State) (kind : FatalKind) (info : Word) : FatalHalt s (s.raise kind info) kind info :=
  ⟨rfl, rfl, fun _ => s.readReg_raise .., rfl, fun _ => rfl, rfl⟩

/-- The value a load writes is the signed number of its bytes (R62, R66). -/
theorem signExtend_readBytes (s : State) (a : Nat) (w : Width) :
    signExtend (s.mem.readBytes a w.bytes) (8 * w.bytes) = BitVec.ofInt 32 (signedBytes s a w) := by
  cases w with
  | byte => exact (congrArg (signExtend · 8) (Memory.readBytes_byte ..)).trans (sext_eq_ofInt (by decide) (by decide) _)
  | half => exact (congrArg (signExtend · 16) (Memory.readBytes_half ..)).trans (sext_eq_ofInt (by decide) (by decide) _)
  | word =>
    have h := sext_eq_ofInt (n := 32) (by decide) (by decide) (wordAt s a)
    rw [sext, BitVec.setWidth_eq] at h
    exact (congrArg (signExtend · 32) (Memory.readBytes_word ..)).trans h

/-! ### The common forms -/

theorem execLoad_inBounds {w : Width} {rd rs1 : Reg} {imm : Word} {s : State}
    (h : (s.loadAddress rs1 imm).toNat + w.bytes ≤ s.cfg.memSize) :
    execLoad w rd rs1 imm s = .next
      (s.writeBack rd (signExtend (s.mem.readBytes (s.loadAddress rs1 imm).toNat w.bytes) (8 * w.bytes))) := by
  simp only [execLoad, s.memRead_eq _ w h]

theorem execLoad_outOfBounds {w : Width} {rd rs1 : Reg} {imm : Word} {s : State}
    (h : s.cfg.memSize < (s.loadAddress rs1 imm).toNat + w.bytes) :
    execLoad w rd rs1 imm s = .next (s.raise .outOfBoundsMemoryAccess (s.loadAddress rs1 imm)) := by
  simp only [execLoad, s.memRead_none _ w h]

theorem execStore_inBounds {w : Width} {rs1 rs2 : Reg} {imm5 : BitVec 5} {imm7 : BitVec 7} {s : State}
    (h : (s.storeAddress rs1 imm5 imm7).toNat + w.bytes ≤ s.cfg.memSize) :
    execStore w rs1 rs2 imm5 imm7 s = .next (State.advancePc
      { s with mem := s.mem.writeBytes (s.storeAddress rs1 imm5 imm7).toNat (s.readReg rs2) w.bytes }) := by
  simp only [execStore, s.memWrite_eq _ w _ h]

theorem execStore_outOfBounds {w : Width} {rs1 rs2 : Reg} {imm5 : BitVec 5} {imm7 : BitVec 7} {s : State}
    (h : s.cfg.memSize < (s.storeAddress rs1 imm5 imm7).toNat + w.bytes) :
    execStore w rs1 rs2 imm5 imm7 s = .next (s.raise .outOfBoundsMemoryAccess (s.storeAddress rs1 imm5 imm7)) := by
  simp only [execStore, s.memWrite_none _ w _ h]

/-! ### What an instruction can do -/

/-- The ways an instruction changes the state: a register write with a new pc, a new pc alone, a store, an event, the
exit, or a fatal halt. -/
inductive Change (i : Instr) (s t : State) : Prop
  /-- A write of `v` to the destination, the pc at `p`. -/
  | register (rd : Reg) (v p : Word) (hd : destination i = some rd) (hp : p = nextPc s i)
      (h : t = (s.writeReg rd v).setPc p)
  /-- A branch. -/
  | jump (hd : destination i = none) (hm : storeTarget s i = none) (hi : ¬ IsEcall i) (h : t = s.setPc (nextPc s i))
  /-- A store in bounds. -/
  | store (ea : Word) (w : Width) (v : Word) (hm : storeTarget s i = some (ea, w))
      (hb : ea.toNat + w.bytes ≤ s.cfg.memSize) (hp : nextPc s i = s.pc + 4)
      (h : t = State.advancePc { s with mem := s.mem.writeBytes ea.toNat v w.bytes })
  /-- An `ecall` service that goes on. -/
  | event (e : Event) (hi : IsEcall i) (hn : s.readReg 10 ≠ 10) (hl : e.legal) (hf : ¬ e.final)
      (h : t = (s.emit e).advancePc)
  /-- The exit service. -/
  | exit (hi : IsEcall i) (hn : s.readReg 10 = 10) (h : t = (s.emit .exitMessage).haltExited)
  /-- A data access out of bounds. -/
  | outOfBounds (ea : Word) (w : Width) (hm : dataAccess s i = some (ea, w))
      (hb : s.cfg.memSize < ea.toNat + w.bytes) (h : t = s.raise .outOfBoundsMemoryAccess ea)
  /-- An unknown service. -/
  | unknownService (hi : IsEcall i) (hn : (s.readReg 10).toNat ∉ [1, 4, 10, 11])
      (h : t = s.raise .invalidEcall (s.readReg 10))

theorem execLoad_change {i : Instr} {w : Width} {rd rs1 : Reg} {imm : Word} {s t : State}
    (hd : destination i = some rd) (hp : nextPc s i = s.pc + 4)
    (ha : dataAccess s i = some (s.loadAddress rs1 imm, w)) (h : execLoad w rd rs1 imm s = .next t) :
    Change i s t := by
  by_cases hb : (s.loadAddress rs1 imm).toNat + w.bytes ≤ s.cfg.memSize
  · rw [execLoad_inBounds hb] at h
    exact .register rd _ _ hd hp.symm (Host.Outcome.next.inj h).symm
  · rw [execLoad_outOfBounds (by omega)] at h
    exact .outOfBounds _ w ha (by omega) (Host.Outcome.next.inj h).symm

theorem execStore_change {i : Instr} {w : Width} {rs1 rs2 : Reg} {imm5 : BitVec 5} {imm7 : BitVec 7} {s t : State}
    (hp : nextPc s i = s.pc + 4) (hm : storeTarget s i = some (s.storeAddress rs1 imm5 imm7, w))
    (ha : dataAccess s i = some (s.storeAddress rs1 imm5 imm7, w)) (h : execStore w rs1 rs2 imm5 imm7 s = .next t) :
    Change i s t := by
  by_cases hb : (s.storeAddress rs1 imm5 imm7).toNat + w.bytes ≤ s.cfg.memSize
  · rw [execStore_inBounds hb] at h
    exact .store _ w _ hm hb hp (Host.Outcome.next.inj h).symm
  · rw [execStore_outOfBounds (by omega)] at h
    exact .outOfBounds _ w ha (by omega) (Host.Outcome.next.inj h).symm

theorem Word.toNat_eq_iff (a : Word) (n : Nat) (hn : n < 2 ^ 32) : a.toNat = n ↔ a = BitVec.ofNat 32 n := by
  constructor
  · intro h; exact BitVec.eq_of_toNat_eq (by rw [h, BitVec.toNat_ofNat, Nat.mod_eq_of_lt hn])
  · rintro rfl; rw [BitVec.toNat_ofNat, Nat.mod_eq_of_lt hn]

/-! The services of `ecall`, one equation each (R247 to R251). -/

section
variable {rd rs1 : Reg} {funct3 : BitVec 3} {imm12 : BitVec 12} {s t : State}

theorem execEcall_printInt (h : s.readReg 10 = 1) :
    execEcall rd rs1 funct3 imm12 s = .next (s.emit (.printInt (s.readReg 11).toInt)).advancePc :=
  if_pos h

theorem execEcall_printString (h : s.readReg 10 = 4) :
    execEcall rd rs1 funct3 imm12 s = .next (s.emit (.printString (s.cstring (s.readReg 11)))).advancePc :=
  (if_neg (by rw [show s.readReg serviceReg = 4 from h]; decide)).trans (if_pos h)

theorem execEcall_exit (h : s.readReg 10 = 10) :
    execEcall rd rs1 funct3 imm12 s = .next (s.emit .exitMessage).haltExited :=
  (if_neg (by rw [show s.readReg serviceReg = 10 from h]; decide)).trans
    ((if_neg (by rw [show s.readReg serviceReg = 10 from h]; decide)).trans (if_pos h))

theorem execEcall_printChar (h : s.readReg 10 = 11) :
    execEcall rd rs1 funct3 imm12 s = .next (s.emit (.printChar ((s.readReg 11).extractLsb' 0 8))).advancePc :=
  (if_neg (by rw [show s.readReg serviceReg = 11 from h]; decide)).trans
    ((if_neg (by rw [show s.readReg serviceReg = 11 from h]; decide)).trans
      ((if_neg (by rw [show s.readReg serviceReg = 11 from h]; decide)).trans (if_pos h)))

theorem execEcall_unknown (h1 : s.readReg 10 ≠ 1) (h4 : s.readReg 10 ≠ 4) (h10 : s.readReg 10 ≠ 10)
    (h11 : s.readReg 10 ≠ 11) :
    execEcall rd rs1 funct3 imm12 s = .next (s.raise .invalidEcall (s.readReg 10)) :=
  (if_neg h1).trans ((if_neg h4).trans ((if_neg h10).trans (if_neg h11)))

theorem execEcall_change (h : execEcall rd rs1 funct3 imm12 s = .next t) :
    Change (.ecall rd rs1 funct3 imm12) s t := by
  have hi : IsEcall (.ecall rd rs1 funct3 imm12) := ⟨rd, rs1, funct3, imm12, rfl⟩
  by_cases h1 : s.readReg 10 = 1
  · rw [execEcall_printInt h1] at h
    refine .event (.printInt (s.readReg 11).toInt) hi (by rw [h1]; decide) ?_ (fun hf => hf) (Host.Outcome.next.inj h).symm
    have := (s.readReg 11).isLt
    rw [Event.legal, BitVec.toInt_eq_toNat_cond]
    constructor <;> split <;> omega
  by_cases h4 : s.readReg 10 = 4
  · rw [execEcall_printString h4] at h
    exact .event (.printString (s.cstring (s.readReg 11))) hi (by rw [h4]; decide) (s.cstring_ne_zero _) (fun hf => hf) (Host.Outcome.next.inj h).symm
  by_cases h10 : s.readReg 10 = 10
  · rw [execEcall_exit h10] at h
    exact .exit hi h10 (Host.Outcome.next.inj h).symm
  by_cases h11 : s.readReg 10 = 11
  · rw [execEcall_printChar h11] at h
    exact .event (.printChar ((s.readReg 11).extractLsb' 0 8)) hi (by rw [h11]; decide) trivial (fun hf => hf)
      (Host.Outcome.next.inj h).symm
  rw [execEcall_unknown h1 h4 h10 h11] at h
  refine .unknownService hi ?_ (Host.Outcome.next.inj h).symm
  simp only [List.mem_cons, List.not_mem_nil, or_false, Word.toNat_eq_iff _ 1 (by decide),
    Word.toNat_eq_iff _ 4 (by decide), Word.toNat_eq_iff _ 10 (by decide), Word.toNat_eq_iff _ 11 (by decide)]
  rintro (h' | h' | h' | h')
  exacts [h1 h', h4 h', h10 h', h11 h']

end

/-- Everything an instruction can do: one `Change`. -/
theorem exec_change {i : Instr} {s t : State} (h : exec i s = .next t) : Change i s t := by
  cases i with
  | lb rd rs1 imm => exact execLoad_change (w := .byte) rfl rfl rfl h
  | lh rd rs1 imm => exact execLoad_change (w := .half) rfl rfl rfl h
  | lw rd rs1 imm => exact execLoad_change (w := .word) rfl rfl rfl h
  | sb rs1 rs2 imm5 imm7 => exact execStore_change (w := .byte) rfl rfl rfl h
  | sh rs1 rs2 imm5 imm7 => exact execStore_change (w := .half) rfl rfl rfl h
  | sw rs1 rs2 imm5 imm7 => exact execStore_change (w := .word) rfl rfl rfl h
  | beq rs1 rs2 imm5 imm7 =>
    refine .jump rfl rfl (fun ⟨_, _, _, _, he⟩ => nomatch he) ((Host.Outcome.next.inj h).symm.trans ?_)
    by_cases hc : s.readReg rs1 = s.readReg rs2 <;> simp [equalCond, nextPc, hc, State.advancePc]
  | bne rs1 rs2 imm5 imm7 =>
    refine .jump rfl rfl (fun ⟨_, _, _, _, he⟩ => nomatch he) ((Host.Outcome.next.inj h).symm.trans ?_)
    by_cases hc : s.readReg rs1 = s.readReg rs2 <;> simp [equalCond, nextPc, hc, State.advancePc]
  | ecall rd rs1 funct3 imm12 => exact execEcall_change h
  | _ => exact .register _ _ _ rfl rfl (Host.Outcome.next.inj h).symm

/-- Every instruction answers a next state in every state: no meaning stops. -/
theorem exec_next (i : Instr) (s : State) : ∃ t, exec i s = .next t := by
  have hl : ∀ w rd rs1 imm, ∃ t, execLoad w rd rs1 imm s = .next t := fun w rd rs1 imm => by
    unfold execLoad; split <;> exact ⟨_, rfl⟩
  have hs : ∀ w rs1 rs2 imm5 imm7, ∃ t, execStore w rs1 rs2 imm5 imm7 s = .next t := fun w rs1 rs2 imm5 imm7 => by
    unfold execStore; split <;> exact ⟨_, rfl⟩
  cases i with
  | ecall => simp only [exec, execEcall]; split_ifs <;> exact ⟨_, rfl⟩
  | lb => exact hl ..
  | lh => exact hl ..
  | lw => exact hl ..
  | sb => exact hs ..
  | sh => exact hs ..
  | sw => exact hs ..
  | _ => exact ⟨_, rfl⟩

/-! ### What a step can do -/

/-- The fetch answers in bounds the little-endian word of the four bytes at the pc (R40, R62). -/
theorem State.fetch_eq {s : State} (h : s.pc.toNat + 4 ≤ s.cfg.memSize) : s.fetch = some (wordAt s s.pc.toNat) := by
  rw [State.fetch, s.memRead_eq _ .word h]
  exact congrArg some (Memory.readBytes_word s.mem s.pc.toNat)

theorem State.fetch_none {s : State} (h : s.cfg.memSize < s.pc.toNat + 4) : s.fetch = none :=
  s.memRead_none _ .word h

/-- Everything a step can do: only a running state steps, and it raises at the fetch, raises for a rejected word, or runs
the decoded instruction (R40, R264). -/
theorem step_cases {s t : State} (h : step s = .next t) : s.status = .running ∧
    ((s.cfg.memSize < s.pc.toNat + 4 ∧ t = s.raise .outOfBoundsMemoryAccess s.pc)
      ∨ (s.pc.toNat + 4 ≤ s.cfg.memSize ∧ ∃ why, decode s.cfg (wordAt s s.pc.toNat) = .error why
          ∧ t = s.raiseRejected why)
      ∨ (s.pc.toNat + 4 ≤ s.cfg.memSize ∧ ∃ i, decode s.cfg (wordAt s s.pc.toNat) = .ok i ∧ exec i s = .next t)) := by
  unfold step at h
  cases hs : s.status with
  | exited => rw [hs] at h; cases h
  | fatal kind info => rw [hs] at h; cases h
  | running =>
    rw [hs] at h
    refine ⟨rfl, ?_⟩
    by_cases hb : s.pc.toNat + 4 ≤ s.cfg.memSize
    · rw [State.fetch_eq hb] at h
      cases hd : decode s.cfg (wordAt s s.pc.toNat) with
      | error why => simp only [hd] at h; exact .inr (.inl ⟨hb, why, rfl, (Host.Outcome.next.inj h).symm⟩)
      | ok i => simp only [hd] at h; exact .inr (.inr ⟨hb, i, rfl, h⟩)
    · rw [State.fetch_none (by omega)] at h
      exact .inl ⟨by omega, (Host.Outcome.next.inj h).symm⟩

theorem step_fetch_none {s : State} (hs : s.status = .running) (hb : s.cfg.memSize < s.pc.toNat + 4) :
    step s = .next (s.raise .outOfBoundsMemoryAccess s.pc) := by
  simp only [step, hs, State.fetch_none hb]

theorem step_rejected {s : State} {why : Rejection} (hs : s.status = .running) (hb : s.pc.toNat + 4 ≤ s.cfg.memSize)
    (hd : decode s.cfg (wordAt s s.pc.toNat) = .error why) : step s = .next (s.raiseRejected why) := by
  simp only [step, hs, State.fetch_eq hb, hd]

theorem step_exec {s : State} {i : Instr} (hs : s.status = .running) (hb : s.pc.toNat + 4 ≤ s.cfg.memSize)
    (hd : decode s.cfg (wordAt s s.pc.toNat) = .ok i) : step s = exec i s := by
  simp only [step, hs, State.fetch_eq hb, hd]

end Sys2Proof.Machine
end

