-- ==== Sys2Proof/Laws/PerInstr.lean ====
section
/-!
SUPPORT. The family MatchesRow: the encoding of every instruction is in the instruction's row of the opcode table
(30_encoding.md R112), one lemma per constructor.
-/

namespace Sys2Proof.Laws.MatchesRow

/-- The word of the instruction has the fixed bits of its row, under all parameters. -/
def Statement (i : Instr) : Prop := ∀ cfg, (i.row cfg).holds (encode cfg i)

/-- A word of the R format meets a row with the mask of opcode, funct3 and funct7. -/
theorem rWord_holds (f7 : BitVec 7) (rs2 rs1 rd : Reg) (f3 : BitVec 3) (op : BitVec 7) :
    rWord f7 rs2 rs1 f3 rd op &&& 0xFE00707F = rWord f7 0 0 f3 0 op := by
  rw [and_mask_rType, funct7Field_rWord, funct3Field_rWord, opcodeField_rWord]

/-- A word of the I format meets a row with the mask of opcode and funct3. -/
theorem iWord_holds (imm12 : BitVec 12) (rs1 rd : Reg) (f3 : BitVec 3) (op : BitVec 7) :
    iWord imm12 rs1 f3 rd op &&& 0x0000707F = rWord 0 0 0 f3 0 op := by
  rw [and_mask_funct3, funct3Field_iWord, opcodeField_iWord]

/-- A word of the S or SB format meets a row with the mask of opcode and funct3. -/
theorem sWord_holds (imm7 : BitVec 7) (rs2 rs1 : Reg) (f3 : BitVec 3) (imm5 : BitVec 5) (op : BitVec 7) :
    sWord imm7 rs2 rs1 f3 imm5 op &&& 0x0000707F = rWord 0 0 0 f3 0 op := by
  rw [and_mask_funct3, sWord_eq_rWord, funct3Field_rWord, opcodeField_rWord]

/-- A word of the U or UJ format meets a row with the mask of the opcode. -/
theorem uWord_holds (imm20 : BitVec 20) (rd : Reg) (op : BitVec 7) :
    uWord imm20 rd op &&& 0x0000007F = rWord 0 0 0 0 0 op := by
  rw [and_mask_opcode, opcodeField_uWord]

theorem add (rd rs1 rs2 : Reg) : Statement (.add rd rs1 rs2) := fun _ => (rWord_holds ..).trans rfl
theorem sub (rd rs1 rs2 : Reg) : Statement (.sub rd rs1 rs2) := fun _ => (rWord_holds ..).trans rfl
theorem mul (rd rs1 rs2 : Reg) : Statement (.mul rd rs1 rs2) := fun _ => (rWord_holds ..).trans rfl
theorem sll (rd rs1 rs2 : Reg) : Statement (.sll rd rs1 rs2) := fun _ => (rWord_holds ..).trans rfl
theorem mulh (rd rs1 rs2 : Reg) : Statement (.mulh rd rs1 rs2) := fun _ => (rWord_holds ..).trans rfl
theorem slt (rd rs1 rs2 : Reg) : Statement (.slt rd rs1 rs2) := fun _ => (rWord_holds ..).trans rfl
theorem xor (rd rs1 rs2 : Reg) : Statement (.xor rd rs1 rs2) := fun _ => (rWord_holds ..).trans rfl
theorem div (rd rs1 rs2 : Reg) : Statement (.div rd rs1 rs2) := fun _ => (rWord_holds ..).trans rfl
theorem srl (rd rs1 rs2 : Reg) : Statement (.srl rd rs1 rs2) := fun _ => (rWord_holds ..).trans rfl
theorem sra (rd rs1 rs2 : Reg) : Statement (.sra rd rs1 rs2) := fun _ => (rWord_holds ..).trans rfl
theorem or (rd rs1 rs2 : Reg) : Statement (.or rd rs1 rs2) := fun _ => (rWord_holds ..).trans rfl
theorem rem (rd rs1 rs2 : Reg) : Statement (.rem rd rs1 rs2) := fun _ => (rWord_holds ..).trans rfl
theorem and (rd rs1 rs2 : Reg) : Statement (.and rd rs1 rs2) := fun _ => (rWord_holds ..).trans rfl
theorem addi (rd rs1 : Reg) (imm : Word) : Statement (.addi rd rs1 imm) := fun _ => (iWord_holds ..).trans rfl
theorem slli (rd rs1 : Reg) (imm : Word) : Statement (.slli rd rs1 imm) := fun _ => (iWord_holds ..).trans rfl
theorem slti (rd rs1 : Reg) (imm : Word) : Statement (.slti rd rs1 imm) := fun _ => (iWord_holds ..).trans rfl
theorem xori (rd rs1 : Reg) (imm : Word) : Statement (.xori rd rs1 imm) := fun _ => (iWord_holds ..).trans rfl
theorem srli (rd rs1 : Reg) (shamt : BitVec 5) : Statement (.srli rd rs1 shamt) := fun _ => (rWord_holds ..).trans rfl
theorem srai (rd rs1 : Reg) (shamt : BitVec 5) : Statement (.srai rd rs1 shamt) := fun _ => (rWord_holds ..).trans rfl
theorem ori (rd rs1 : Reg) (imm : Word) : Statement (.ori rd rs1 imm) := fun _ => (iWord_holds ..).trans rfl
theorem andi (rd rs1 : Reg) (imm : Word) : Statement (.andi rd rs1 imm) := fun _ => (iWord_holds ..).trans rfl
theorem lb (rd rs1 : Reg) (imm : Word) : Statement (.lb rd rs1 imm) := fun _ => (iWord_holds ..).trans rfl
theorem lh (rd rs1 : Reg) (imm : Word) : Statement (.lh rd rs1 imm) := fun _ => (iWord_holds ..).trans rfl
theorem lw (rd rs1 : Reg) (imm : Word) : Statement (.lw rd rs1 imm) := fun _ => (iWord_holds ..).trans rfl
theorem sb (rs1 rs2 : Reg) (imm5 : BitVec 5) (imm7 : BitVec 7) : Statement (.sb rs1 rs2 imm5 imm7) := fun _ => (sWord_holds ..).trans rfl
theorem sh (rs1 rs2 : Reg) (imm5 : BitVec 5) (imm7 : BitVec 7) : Statement (.sh rs1 rs2 imm5 imm7) := fun _ => (sWord_holds ..).trans rfl
theorem sw (rs1 rs2 : Reg) (imm5 : BitVec 5) (imm7 : BitVec 7) : Statement (.sw rs1 rs2 imm5 imm7) := fun _ => (sWord_holds ..).trans rfl
theorem beq (rs1 rs2 : Reg) (imm5 : BitVec 5) (imm7 : BitVec 7) : Statement (.beq rs1 rs2 imm5 imm7) := fun _ => (sWord_holds ..).trans rfl
theorem bne (rs1 rs2 : Reg) (imm5 : BitVec 5) (imm7 : BitVec 7) : Statement (.bne rs1 rs2 imm5 imm7) := fun _ => (sWord_holds ..).trans rfl
theorem jal (rd : Reg) (imm20 : BitVec 20) : Statement (.jal rd imm20) := fun _ => (uWord_holds ..).trans rfl
theorem lui (rd : Reg) (imm20 : BitVec 20) : Statement (.lui rd imm20) := fun _ => (uWord_holds ..).trans rfl
theorem mac (rd rs1 rs2 : Reg) : Statement (.mac rd rs1 rs2) := fun _ => rWord_holds ..
theorem acc (rd rs1 rs2 : Reg) : Statement (.acc rd rs1 rs2) := fun _ => rWord_holds ..
theorem gep (rd rs1 rs2 : Reg) : Statement (.gep rd rs1 rs2) := fun _ => rWord_holds ..
theorem ecall (rd rs1 : Reg) (funct3 : BitVec 3) (imm12 : BitVec 12) : Statement (.ecall rd rs1 funct3 imm12) := fun _ =>
  ((and_mask_opcode _).trans (by rw [encode, opcodeField_iWord])).trans (by decide : rWord 0 0 0 0 0 0x73 = 0x00000073)

end Sys2Proof.Laws.MatchesRow
end

