-- ==== Sys2Proof/Tests/Slice0.lean ====
section
/-!
SUPPORT. Tests and witnesses. Expected words and results are those of spec/95_test_vectors.md and of the examples in the
instruction rules, never this model's own answers. Witnesses show that the premises of the obligations can be met.
-/

namespace Sys2Proof.Tests

open Sys2Proof Sys2Proof.Machine

/-! ### Small states -/

/-- The start state of the test vectors: the defaults, the pc at `0x100`, the listed registers and memory cells. -/
def start (regs : List (Fin 32 × Word)) (mem : Memory := []) : State :=
  { State.reset with pc := 0x100, regs := regs.foldl (fun v c => v.set c.1 c.2) State.reset.regs, mem := mem }

/-- The same with the word at the pc. -/
def at100 (raw : Nat) (regs : List (Fin 32 × Word)) (mem : Memory := []) : State :=
  (start regs mem).withFetchWord 32 raw

/-- The same under `X0_HARDWIRED`. -/
def hardwired (s : State) : State := { s with cfg := { s.cfg with x0Hardwired := true } }

/-- What is seen of the state after one step, if the step answers one. -/
def afterStep {α : Type} (s : State) (look : State → α) : Option α :=
  match step s with
  | .next t => some (look t)
  | _ => none

theorem afterStep_some {α : Type} {s : State} {look : State → α} {a : α} (h : afterStep s look = some a) :
    ∃ t, step s = .next t ∧ look t = a := by
  unfold afterStep at h
  split at h
  · exact ⟨_, by assumption, Option.some.inj h⟩
  · cases h

/-- A register and the pc after one step. -/
def regPc (s : State) (r : Reg) : Option (Word × Word) := afterStep s fun t => (t.readReg r, t.pc)

/-- Four bytes of memory and the pc after one step. -/
def bytesPc (s : State) (a : Nat) : Option (List Byte × Word) :=
  afterStep s fun t => ((List.range 4).map fun k => t.readByte (a + k), t.pc)

/-- Status, trace and pc after one step. -/
def runPc (s : State) : Option (Status × List Event × Word) := afterStep s fun t => (t.status, t.out, t.pc)

/-! ### WellFormed: each check refuses an ill-formed term -/

theorem test_wf_default : Config.specDefault.WellFormed := by decide
theorem test_wf_memSize_zero : ¬ Config.WellFormed { Config.specDefault with memSize := 0 } := by decide
theorem test_wf_memSize_above : ¬ Config.WellFormed { Config.specDefault with memSize := 2 ^ 32 + 1 } := by decide
theorem test_wf_initMem_unsorted :
    ¬ Config.WellFormed { Config.specDefault with initMem := [(1, 5), (0, 6)] } := by decide
theorem test_wf_initMem_repeated :
    ¬ Config.WellFormed { Config.specDefault with initMem := [(1, 5), (1, 6)] } := by decide
theorem test_wf_initMem_zero_cell : ¬ Config.WellFormed { Config.specDefault with initMem := [(1, 0)] } := by decide
theorem test_wf_initMem_outside : ¬ Config.WellFormed { Config.specDefault with initMem := [(4096, 1)] } := by decide
theorem test_wf_selectors_equal :
    ¬ Config.WellFormed { Config.specDefault with selAcc := Config.specDefault.selGep } := by decide
theorem test_wf_failStatus_zero : ¬ Config.WellFormed { Config.specDefault with failStatus := 0 } := by decide
theorem test_wf_instr_acc : ¬ Instr.WellFormed { Config.specDefault with selAcc := Config.specDefault.selMac } (.acc 1 2 3) := by
  decide
theorem test_wf_instr_imm :
    ¬ Instr.WellFormed Config.specDefault (.addi 1 2 2048)
      ∧ ¬ Instr.WellFormed Config.specDefault (.slli 1 2 0xFFFFF7FF)
      ∧ ¬ Instr.WellFormed Config.specDefault (.slti 1 2 2048)
      ∧ ¬ Instr.WellFormed Config.specDefault (.xori 1 2 0xFFFFF7FF)
      ∧ ¬ Instr.WellFormed Config.specDefault (.ori 1 2 2048)
      ∧ ¬ Instr.WellFormed Config.specDefault (.andi 1 2 0xFFFFF7FF)
      ∧ ¬ Instr.WellFormed Config.specDefault (.lb 1 2 2048)
      ∧ ¬ Instr.WellFormed Config.specDefault (.lh 1 2 0xFFFFF7FF)
      ∧ ¬ Instr.WellFormed Config.specDefault (.lw 1 2 2048) := by decide
theorem test_wf_offsets :
    ¬ BranchOffsetFits 4096 ∧ ¬ BranchOffsetFits 3 ∧ ¬ BranchOffsetFits (BitVec.ofInt 32 (-4098))
      ∧ ¬ JumpOffsetFits 1048576 ∧ ¬ JumpOffsetFits 1 ∧ ¬ JumpOffsetFits (BitVec.ofInt 32 (-1048578))
      ∧ ¬ Imm12Fits 2048 ∧ ¬ Imm12Fits (BitVec.ofInt 32 (-2049)) := by decide

/-! ### Decoding: a word of the spec for every instruction -/

/-- The words of the examples of R161 to R173. -/
theorem test_decode_rType :
    [0x002081B3, 0x402081B3, 0x022081B3, 0x002091B3, 0x022091B3, 0x0020A1B3, 0x0020C1B3, 0x0220C1B3, 0x0020D1B3,
      0x4020D1B3, 0x0020E1B3, 0x0220E1B3, 0x0020F1B3].map (decode Config.specDefault)
    = [.ok (.add 3 1 2), .ok (.sub 3 1 2), .ok (.mul 3 1 2), .ok (.sll 3 1 2), .ok (.mulh 3 1 2), .ok (.slt 3 1 2),
      .ok (.xor 3 1 2), .ok (.div 3 1 2), .ok (.srl 3 1 2), .ok (.sra 3 1 2), .ok (.or 3 1 2), .ok (.rem 3 1 2),
      .ok (.and 3 1 2)] := by decide

/-- The words of the examples of R181 to R188. -/
theorem test_decode_iType :
    [0x00508193, 0x00409193, 0xFFF0A193, 0x0F00C193, 0x0040D193, 0x4040D193, 0x0550E193, 0x0FF0F193].map
      (decode Config.specDefault)
    = [.ok (.addi 3 1 5), .ok (.slli 3 1 4), .ok (.slti 3 1 0xFFFFFFFF), .ok (.xori 3 1 0x0F0), .ok (.srli 3 1 4),
      .ok (.srai 3 1 4), .ok (.ori 3 1 0x55), .ok (.andi 3 1 0xFF)] := by decide

/-- The words of the examples of R196 to R198 and R206 to R208. -/
theorem test_decode_memory :
    [0x00008183, 0x00209183, 0xFFC0A183, 0x00208023, 0x00209023, 0xFE20AE23].map (decode Config.specDefault)
    = [.ok (.lb 3 1 0), .ok (.lh 3 1 2), .ok (.lw 3 1 0xFFFFFFFC), .ok (.sb 1 2 0 0), .ok (.sh 1 2 0 0),
      .ok (.sw 1 2 0x1C 0x7F)] := by decide

/-- The words of the examples of R216 to R218, R230, R236 to R238 and R246. -/
theorem test_decode_others :
    [0x00208863, 0xFE029CE3, 0xFF1FF0EF, 0xDEADB1B7, 0x002081AB, 0x002091AB, 0x0020A1AB, 0x00000073, 0x00A51573].map
      (decode Config.specDefault)
    = [.ok (.beq 1 2 0b10000 0), .ok (.bne 5 0 0b11001 0b1111111), .ok (.jal 1 0xFF1FF), .ok (.lui 3 0xDEADB),
      .ok (.mac 3 1 2), .ok (.acc 3 1 2), .ok (.gep 3 1 2), .ok (.ecall 0 0 0 0), .ok (.ecall 10 10 1 0x00A)] := by decide

/-- R109: the record of a load holds the extended immediate, that of an `ecall` the field as it is, that of a store the
fragments, and each its word. The words are the examples of R198 and R208 and 95_test_vectors.md's all-ones `ecall`. -/
theorem test_record :
    [0xFFC0A183, 0xFFFFFFF3, 0xFE20AE23, 0x0000007F].map decodeRecord
    = [some (.iType 0xFFC0A183 3 1 2 (.extended 0xFFFFFFFC)), some (.iType 0xFFFFFFF3 31 31 7 (.unextended 0xFFF)),
      some (.sType 0xFE20AE23 1 2 2 0x1C 0x7F), none] := by decide

/-- `add x3, x1, x2`, bit by bit in the places of R102: funct7, rs2, rs1, funct3, rd, opcode. -/
theorem test_decode_bits :
    decode Config.specDefault 0b0000000_00010_00001_000_00011_0110011 = .ok (.add 3 1 2) := by decide

/-- 95_test_vectors.md 2.11: an unknown opcode, the zero word, `sltu`, a bad shift, `lbu`, an unassigned custom pair. -/
theorem test_decode_rejects :
    [0x0000007F, 0x00000000, 0x0020B1B3, 0x8000D193, 0x0000C183, 0x022081AB].map (decode Config.specDefault)
    = [.error (.invalidOpcode 0x0000007F), .error (.invalidOpcode 0), .error (.invalidInstruction 0x0020B1B3),
      .error (.invalidInstruction 0x8000D193), .error (.invalidInstruction 0x0000C183),
      .error (.invalidInstruction 0x022081AB)] := by decide

theorem test_decodeBytes :
    decodeBytes Config.specDefault [0xB3, 0x81, 0x20, 0x00, 0x73] = .ok (.add 3 1 2, [0x73])
      ∧ decodeBytes Config.specDefault [0xB3, 0x81, 0x20] = .error .tooFewBytes := by decide

theorem test_decodeTableWord :
    decodeTableWord 32 0x40000033 = some (.sub 0 0 0) ∧ decodeTableWord 32 0 = none := by decide

/-- Other selectors pick other instructions (R119): `mac` moved to funct3 5, and its old pair now selects nothing. -/
theorem test_decode_other_selector :
    [0x0020D1AB, 0x002081AB].map (decode { Config.specDefault with selMac := ⟨5, 0⟩ })
    = [.ok (.mac 3 1 2), .error (.invalidInstruction 0x002081AB)] := by decide

/-! ### One step of every instruction (95_test_vectors.md 2.3 to 2.13) -/

theorem test_add : regPc (at100 0x002081B3 [(1, 0x7FFFFFFF), (2, 1)]) 3 = some (0x80000000, 0x104) := by decide
theorem test_add_same : regPc (at100 0x001080B3 [(1, 0x40000001)]) 1 = some (0x80000002, 0x104) := by decide
theorem test_sub : regPc (at100 0x402081B3 [(1, 5), (2, 7)]) 3 = some (0xFFFFFFFE, 0x104) := by decide
theorem test_mul : regPc (at100 0x022081B3 [(1, 0x12345678), (2, 0x9ABCDEF0)]) 3 = some (0x242D2080, 0x104) := by decide
theorem test_mulh : regPc (at100 0x022091B3 [(1, 0x12345678), (2, 0x9ABCDEF0)]) 3 = some (0xF8CC93D6, 0x104) := by decide
theorem test_mulh_min : regPc (at100 0x022091B3 [(1, 0x80000000), (2, 0x80000000)]) 3 = some (0x40000000, 0x104) := by
  decide
theorem test_sll : regPc (at100 0x002091B3 [(1, 0x12345678), (2, 0x24)]) 3 = some (0x23456780, 0x104) := by decide
theorem test_slt : regPc (at100 0x0020A1B3 [(1, 0x80000000), (2, 0x7FFFFFFF)]) 3 = some (1, 0x104) := by decide
theorem test_slt_not : regPc (at100 0x0020A1B3 [(1, 1), (2, 0xFFFFFFFF)]) 3 = some (0, 0x104) := by decide
theorem test_xor : regPc (at100 0x0020C1B3 [(1, 0x12345678), (2, 0x9ABCDEF0)]) 3 = some (0x88888888, 0x104) := by decide
theorem test_div : regPc (at100 0x0220C1B3 [(1, 0x14), (2, 0xFFFFFFFA)]) 3 = some (0xFFFFFFFD, 0x104) := by decide
theorem test_div_corners :
    regPc (at100 0x0220C1B3 [(1, 7), (2, 0)]) 3 = some (0xFFFFFFFF, 0x104)
      ∧ regPc (at100 0x0220C1B3 [(1, 0x80000000), (2, 0xFFFFFFFF)]) 3 = some (0x80000000, 0x104) := by decide
theorem test_srl : regPc (at100 0x0020D1B3 [(1, 0x9ABCDEF0), (2, 0x24)]) 3 = some (0x09ABCDEF, 0x104) := by decide
theorem test_sra : regPc (at100 0x4020D1B3 [(1, 0xFFFFFFF9), (2, 3)]) 3 = some (0xFFFFFFFF, 0x104) := by decide
theorem test_or : regPc (at100 0x0020E1B3 [(1, 0x12345678), (2, 0x9ABCDEF0)]) 3 = some (0x9ABCDEF8, 0x104) := by decide
theorem test_rem : regPc (at100 0x0220E1B3 [(1, 0xFFFFFFEC), (2, 6)]) 3 = some (0xFFFFFFFE, 0x104) := by decide
theorem test_rem_corners :
    regPc (at100 0x0220E1B3 [(1, 7), (2, 0)]) 3 = some (7, 0x104)
      ∧ regPc (at100 0x0220E1B3 [(1, 0x80000000), (2, 0xFFFFFFFF)]) 3 = some (0, 0x104) := by decide
theorem test_and : regPc (at100 0x0020F1B3 [(1, 0x12345678), (2, 0x9ABCDEF0)]) 3 = some (0x12345670, 0x104) := by decide

theorem test_addi : regPc (at100 0x80008193 [(1, 0x80000000)]) 3 = some (0x7FFFF800, 0x104) := by decide
theorem test_slli : regPc (at100 0x00409193 [(1, 0x12345678)]) 3 = some (0x23456780, 0x104) := by decide
theorem test_slli_upper_ignored : regPc (at100 0x7E009193 [(1, 0x12345678)]) 3 = some (0x12345678, 0x104) := by decide
theorem test_slti : regPc (at100 0xFFF0A193 [(1, 0xFFFFFFFE)]) 3 = some (1, 0x104) := by decide
theorem test_xori : regPc (at100 0xFFF0C193 [(1, 0x12345678)]) 3 = some (0xEDCBA987, 0x104) := by decide
theorem test_srli : regPc (at100 0x0040D193 [(1, 0x9ABCDEF0)]) 3 = some (0x09ABCDEF, 0x104) := by decide
theorem test_srai : regPc (at100 0x4040D193 [(1, 0x9ABCDEF0)]) 3 = some (0xF9ABCDEF, 0x104) := by decide
theorem test_ori : regPc (at100 0x8000E193 [(1, 0xF)]) 3 = some (0xFFFFF80F, 0x104) := by decide
theorem test_andi : regPc (at100 0xFF00F193 [(1, 0x12345678)]) 3 = some (0x12345670, 0x104) := by decide

/-- The memory of the load vectors. -/
def loadMem : Memory := [(50, 0xFF), (51, 0x7F), (52, 0x80), (100, 0xEF), (101, 0xBE), (102, 0xAD), (103, 0xDE)]

theorem test_lb : regPc (at100 0x00208183 [(1, 50)] loadMem) 3 = some (0xFFFFFF80, 0x104) := by decide
theorem test_lb_outside :
    runPc (at100 0x7FF08183 [(1, 0x7FFFFFFF)]) = some (.fatal .outOfBoundsMemoryAccess 0x800007FE,
      [.diagnostic .outOfBoundsMemoryAccess 0x800007FE], 0x100) := by decide
theorem test_lh : regPc (at100 0x00109183 [(1, 100)] loadMem) 3 = some (0xFFFFADBE, 0x104) := by decide
theorem test_lh_outside :
    runPc (at100 0x00009183 [(1, 0xFFF)]) = some (.fatal .outOfBoundsMemoryAccess 0xFFF,
      [.diagnostic .outOfBoundsMemoryAccess 0xFFF], 0x100) := by decide
theorem test_lw : regPc (at100 0x8000A183 [(1, 0x864)] loadMem) 3 = some (0xDEADBEEF, 0x104) := by decide
theorem test_lw_wraps : regPc (at100 0x0650A183 [(1, 0xFFFFFFFF)] loadMem) 3 = some (0xDEADBEEF, 0x104) := by decide
theorem test_sb : bytesPc (at100 0x00208023 [(1, 100), (2, 0xDEADBEEF)]) 99 = some ([0, 0xEF, 0, 0], 0x104) := by decide
theorem test_sh : bytesPc (at100 0x00209023 [(1, 101), (2, 0xBEEF)]) 100 = some ([0, 0xEF, 0xBE, 0], 0x104) := by decide
theorem test_sh_outside : bytesPc (at100 0x00209023 [(1, 0xFFF), (2, 0x1122)]) 0xFFC = some ([0, 0, 0, 0], 0x100) := by
  decide
theorem test_sw : bytesPc (at100 0xFE20AE23 [(1, 104), (2, 0x01020304)]) 100 = some ([4, 3, 2, 1], 0x104) := by decide
theorem test_sw_zero_keeps_form :
    afterStep (at100 0x0020A023 [(1, 100)] loadMem) (fun t => t.mem)
      = some [(50, 0xFF), (51, 0x7F), (52, 0x80), (256, 0x23), (257, 0xA0), (258, 0x20)] := by decide

theorem test_beq : regPc (at100 0x7E208FE3 [(1, 5), (2, 5)]) 1 = some (5, 0x10FE) := by decide
theorem test_beq_not_taken : regPc (at100 0x80208063 [(1, 5), (2, 6)]) 1 = some (5, 0x104) := by decide
theorem test_bne : regPc (at100 0x80209063 [(1, 1)]) 1 = some (1, 0xFFFFF100) := by decide
theorem test_jal : regPc (at100 0x7FFFF0EF [(1, 0x77)]) 1 = some (0x104, 0x1000FE) := by decide
theorem test_jal_backward : regPc (at100 0x800000EF [(1, 0x77)]) 1 = some (0x104, 0xFFF00100) := by decide
theorem test_lui : regPc (at100 0x800001B7 [(3, 0x55555555)]) 3 = some (0x80000000, 0x104) := by decide
theorem test_mac :
    regPc (at100 0x002081AB [(3, 0x7FFFFFFF), (1, 0x7FFFFFFF), (2, 2)]) 3 = some (0x7FFFFFFD, 0x104) := by decide
theorem test_mac_same : regPc (at100 0x001080AB [(1, 5)]) 1 = some (30, 0x104) := by decide
theorem test_acc :
    regPc (at100 0x002091AB [(3, 0x64), (1, 6), (2, 7)]) 3 = some (0x71, 0x104) := by decide
theorem test_gep : regPc (at100 0x0020A1AB [(3, 0x55), (1, 0x1000), (2, 3)]) 3 = some (0x1030, 0x104) := by decide

theorem test_ecall_services :
    runPc (at100 0x00000073 [(10, 1), (11, 0xFFFFFFD6)]) = some (.running, [.printInt (-42)], 0x104)
      ∧ runPc (at100 0x00000073 [(10, 4), (11, 0xFFE)] [(4094, 0x41), (4095, 0x42)])
        = some (.running, [.printString [0x41, 0x42]], 0x104)
      ∧ runPc (at100 0x00000073 [(10, 10), (11, 0x4D)]) = some (.exited, [.exitMessage], 0x100)
      ∧ runPc (at100 0xFFFFFFF3 [(10, 11), (11, 0x2A)]) = some (.running, [.printChar 0x2A], 0x104) := by decide
theorem test_ecall_unknown :
    runPc (at100 0x00000073 [(10, 0x10A)]) = some (.fatal .invalidEcall 0x10A, [.diagnostic .invalidEcall 0x10A], 0x100) := by
  decide

/-- 95_test_vectors.md 2.13: a write to register 0 is discarded, the pc update is not. -/
theorem test_hardwired :
    regPc (hardwired (at100 0x0080006F [])) 0 = some (0, 0x108)
      ∧ regPc (at100 0x0080006F []) 0 = some (0x104, 0x108) := by decide

/-- 95_test_vectors.md 2.12: the fetch raises first, and the last word of memory is fetched. -/
theorem test_fetch_bounds :
    runPc { start [] with pc := 0xFFFFFFFE } = some (.fatal .outOfBoundsMemoryAccess 0xFFFFFFFE,
        [.diagnostic .outOfBoundsMemoryAccess 0xFFFFFFFE], 0xFFFFFFFE)
      ∧ runPc (State.withFetchWord { start [] with pc := 0xFFC } 32 0x00000013) = some (.running, [], 0x1000) := by decide

/-- The order of 95_test_vectors.md 2.12: an illegal load word raises before its address is looked at. -/
theorem test_order :
    runPc (at100 0x0000C183 [(1, 0xFFFFFFFF)]) = some (.fatal .invalidInstruction 0x0000C183,
      [.diagnostic .invalidInstruction 0x0000C183], 0x100) := by decide

/-- R293: from the reset state, with nothing placed, the first step halts on the zero word. -/
theorem test_reset_step :
    runPc State.reset = some (.fatal .invalidOpcode 0, [.diagnostic .invalidOpcode 0], 0) := by decide

theorem test_not_running : afterStep { start [] with status := .exited } (fun t => t.pc) = none := by decide

/-- 95_test_vectors.md 2.1. -/
theorem test_signExtend :
    [signExtend 1 1, signExtend 0x80 8, signExtend 0x7FF 12, signExtend 0x1FF8 13, signExtend 0x100000 21,
      signExtend 0xDEADBEEF 32] = [0xFFFFFFFF, 0xFFFFFF80, 0x7FF, 0xFFFFFFF8, 0xFFF00000, 0xDEADBEEF] := by decide

/-- 95_test_vectors.md 2.2. -/
theorem test_offsets :
    [branchOffset 0b01011 0b1010101, jumpOffset 0xAABAA, storeOffset 0b01010 0b1010101]
      = [BitVec.ofInt 32 (-1366), BitVec.ofInt 32 (-349526), BitVec.ofInt 32 (-1366)] := by decide

/-- 30_encoding.md R131 and 46_upper_immediate.md R230: the parts of `0xDEADBEEF`. -/
theorem test_li32 : (Pseudo.li32 3 0xDEADBEEF).expand = [.lui 3 0xDEADC, .addi 3 3 0xFFFFFEEF] := by decide

/-! ### Witnesses: the premises of the obligations can be met

Each theorem names the obligation whose premises it meets; a statement of several clauses has one witness a clause, at the
edge of its range. -/

/-- `RegRegRule`, `RegImmRule`, `ShiftImmRule`, `LoadRule`, `StoreRule`, `BranchRule`, `JalLinksAndJumps`,
`LuiFillsUpperBits`, `EcallServicesByNumber`: a word of each mask's rows. -/
theorem witness_rows :
    [(0x002081B3, 0x00000033), (0x402081B3, 0x40000033), (0x022081B3, 0x02000033), (0x022091B3, 0x02001033),
      (0x002091B3, 0x00001033), (0x0020D1B3, 0x00005033), (0x4020D1B3, 0x40005033), (0x0020A1B3, 0x00002033),
      (0x0020C1B3, 0x00004033), (0x0020E1B3, 0x00006033), (0x0020F1B3, 0x00007033), (0x0220C1B3, 0x02004033),
      (0x0220E1B3, 0x02006033), (0x0040D193, 0x00005013), (0x4040D193, 0x40005013)].all
        (fun c => (c.1 : Word) &&& 0xFE00707F == c.2)
    ∧ [(0x00508193, 0x00000013), (0x7E009193, 0x00001013), (0xFFF0A193, 0x00002013), (0x0F00C193, 0x00004013),
      (0x0550E193, 0x00006013), (0x0FF0F193, 0x00007013), (0x00008183, 0x00000003), (0x00209183, 0x00001003),
      (0xFFC0A183, 0x00002003), (0x00208023, 0x00000023), (0x00209023, 0x00001023), (0xFE20AE23, 0x00002023),
      (0x00208863, 0x00000063), (0xFE029CE3, 0x00001063)].all (fun c => (c.1 : Word) &&& 0x0000707F == c.2)
    ∧ [(0xFF1FF0EF, 0x0000006F), (0xDEADB1B7, 0x00000037), (0xFFFFFFF3, 0x00000073)].all
        (fun c => (c.1 : Word) &&& 0x0000007F == c.2) := by decide

/-- `CustomInstructionsFuse`. -/
theorem witness_custom :
    Config.specDefault.SelectorsDiffer
      ∧ [(0x002081AB, Config.specDefault.selMac), (0x002091AB, Config.specDefault.selAcc),
        (0x0020A1AB, Config.specDefault.selGep)].all
        (fun c => (c.1 : Word).extractLsb' 0 7 == 0x2b
          && (⟨c.1.extractLsb' 12 3, c.1.extractLsb' 25 7⟩ : Selector) == c.2) := by decide

/-- `LoadsSignExtendOrHalt`, `MemReadIsLittleEndian`: the last address in bounds and the first out of bounds, of each
width. -/
theorem witness_load_bounds :
    [Width.byte, Width.half, Width.word].all (fun w =>
      let s := start [(1, BitVec.ofNat 32 (4096 - w.bytes))]
      let inside := s.readReg 1 + 0
      let outside := s.readReg 1 + 1
      decide (inside.toNat + w.bytes ≤ s.cfg.memSize) && decide (s.cfg.memSize < outside.toNat + w.bytes)) := by decide

/-- `StoresWriteLowBytesOrHalt`, `MemWriteChangesItsBytesOnly`: the same for stores. -/
theorem witness_store_bounds :
    (start []).mem.wf ∧ [Width.byte, Width.half, Width.word].all (fun w =>
      let s := start [(1, BitVec.ofNat 32 (4096 - w.bytes))]
      let inside := s.readReg 1 + BitVec.ofInt 32 ((0 : BitVec 7) ++ (0 : BitVec 5)).toInt
      let outside := s.readReg 1 + BitVec.ofInt 32 ((0 : BitVec 7) ++ (1 : BitVec 5)).toInt
      decide (inside.toNat + w.bytes ≤ s.cfg.memSize) && decide (s.cfg.memSize < outside.toNat + w.bytes)) := by decide

/-- `EcallServicesByNumber`: a state for each clause, and the numbers next to the four. -/
theorem witness_services :
    [1, 4, 10, 11].all (fun n => ((start [(10, BitVec.ofNat 32 n)]).readReg 10).toNat == n)
      ∧ [0, 2, 3, 5, 9, 12, 0x10A].all (fun n => ((start [(10, BitVec.ofNat 32 n)]).readReg 10).toNat ∉ [1, 4, 10, 11]) := by
  decide

/-- `EcallIgnoresItsOtherBits`. -/
theorem witness_ecall_bits :
    (0x00000073 : Word).extractLsb' 0 7 = 0x73 ∧ (0xFFFFFFF3 : Word).extractLsb' 0 7 = 0x73 := by decide

/-- `RecordsHoldExtendedImmediatesOrRawFragments`: a word for each clause. -/
theorem witness_record :
    [(0x80000013, 0x13), (0x7FF00003, 0x03), (0xFFFFFFF3, 0x73), (0xFE20AE23, 0x23), (0x00208863, 0x63), (0xDEADB1B7, 0x37),
      (0xFF1FF0EF, 0x6F), (0x002081B3, 0x33), (0x002081AB, 0x2b)].all
        (fun c => (c.1 : Word).extractLsb' 0 7 == (c.2 : BitVec 7)) := by decide

/-- `SlliIgnoresUpperImmediate`. -/
theorem witness_slli_bits :
    (0x7E009193 : Word).extractLsb' 0 7 = 0x13 ∧ (0x7E009193 : Word).extractLsb' 12 3 = 1 := by decide

/-- `DecodeOfEncodeIsIdentity`: the forms that need its premise, at both ends of the immediate's range, and one that does
not. -/
theorem witness_encode :
    Instr.WellFormed Config.specDefault (.gep 31 0 31) ∧ Instr.WellFormed Config.specDefault (.lw 31 31 2047)
      ∧ Instr.WellFormed Config.specDefault (.slli 31 31 0xFFFFF800) ∧ Instr.WellFormed Config.specDefault (.srai 31 31 31) := by
  decide

/-- `EncodeOfDecodeIsIdentity`. -/
theorem witness_decode : decode Config.specDefault 0x7E009193 = .ok (.slli 3 1 0x7E0) := by decide

/-- `RowMatchDecidesInstruction`, `RowsNeverOverlap`: a word in a row, under selectors that differ. -/
theorem witness_row :
    Config.specDefault.SelectorsDiffer ∧ (Instr.row Config.specDefault (.acc 0 0 0)).holds 0x002091AB := by
  exact ⟨by decide, by unfold TableRow.holds; decide⟩

/-- `UnknownOpcodesAreInvalidOpcode` and `IllegalFunctionCodesAreInvalidInstruction`: both sides are met. -/
theorem witness_illegal :
    (0x0000007F : Word).extractLsb' 0 7 ∉ knownOpcodes ∧ IllegalFunction Config.specDefault 0x0020B1B3 := by
  exact ⟨by decide, by unfold IllegalFunction; decide⟩

/-- `SignExtendIsTwosComplement`: the smallest and the largest width, at the largest field. -/
theorem witness_signExtend :
    (1 ≤ 1 ∧ 1 ≤ 32 ∧ 1 < 2 ^ 1) ∧ (1 ≤ 32 ∧ 32 ≤ 32 ∧ 2 ^ 32 - 1 < 2 ^ 32) := by decide

/-- `OffsetAssemblyRoundTrips`: both ends of each range. -/
theorem witness_offsets :
    BranchOffsetFits (BitVec.ofInt 32 (-4096)) ∧ BranchOffsetFits 4094
      ∧ JumpOffsetFits (BitVec.ofInt 32 (-1048576)) ∧ JumpOffsetFits 1048574
      ∧ Imm12Fits (BitVec.ofInt 32 (-2048)) ∧ Imm12Fits 2047 := by decide

/-- `MixedWidthAccessesSeeTheBytes`: the last word of memory. -/
theorem witness_mixed_width :
    ∃ t, (start []).cfg.memSize ≤ 2 ^ 32 ∧ (start []).mem.wf ∧ (start []).memWrite 4092 .word 0xDEADBEEF = some t :=
  ⟨_, by decide, by decide, State.memWrite_eq _ _ _ _ (by decide)⟩

/-- `LoadAfterStoreGivesTheValue`: the last address of each width. -/
theorem witness_load_after_store :
    [(start [(1, 4095)], 1), (start [(1, 4094)], 2), (start [(1, 4092)], 4)].all (fun c =>
      decide c.1.mem.wf && decide (c.1.loadAddress 1 0 = c.1.storeAddress 1 0 0)
        && decide ((c.1.storeAddress 1 0 0).toNat + c.2 ≤ c.1.cfg.memSize))
    ∧ (∃ t, exec (.sb 1 2 0 0) (start [(1, 4095)]) = .next t) ∧ (∃ t, exec (.sh 1 2 0 0) (start [(1, 4094)]) = .next t)
    ∧ ∃ t, exec (.sw 1 2 0 0) (start [(1, 4092)]) = .next t :=
  ⟨by decide, exec_next _ _, exec_next _ _, exec_next _ _⟩

/-- `SelfModifyingCodeTakesEffectAtOnce`: program P6 of 95_test_vectors.md at its third step. -/
def selfModifying : State := at100 0x00102623 [(0, 0xF8), (1, 0x00100113)]

theorem witness_self_modifying :
    selfModifying.mem.wf ∧ selfModifying.status = .running ∧ selfModifying.pc.toNat + 4 ≤ selfModifying.cfg.memSize
      ∧ decode selfModifying.cfg (wordAt selfModifying selfModifying.pc.toNat) = .ok (.sw 0 1 0xC 0)
      ∧ selfModifying.storeAddress 0 0xC 0 = selfModifying.pc + 4
      ∧ (selfModifying.pc + 4).toNat + 4 ≤ selfModifying.cfg.memSize
      ∧ decode selfModifying.cfg (selfModifying.readReg 1) = .ok (.addi 2 0 1) := by decide

/-- `RegisterReadsGiveTheLastWrite`, `OnlyTheDestinationIsWritten`: register 0 where it is ordinary, another where it is
hard-wired, and the hard-wired one. -/
theorem witness_register :
    ¬ ((start []).cfg.x0Hardwired = true ∧ (0 : Reg) = 0) ∧ ¬ ((hardwired (start [])).cfg.x0Hardwired = true ∧ (1 : Reg) = 0)
      ∧ (hardwired (start [])).cfg.x0Hardwired = true := by decide

/-- `OnlyTheDestinationIsWritten`: an instruction that answers, and a register it does not name. -/
theorem witness_destination : ∃ t, exec (.add 3 1 2) (start [(1, 5)]) = .next t ∧ destination (.add 3 1 2) ≠ some 4 :=
  ⟨_, rfl, by decide⟩

/-- `InstructionsReadOnlyTheirSources`: two states that differ in `x[5]` alone, and `mac`. -/
theorem witness_sources :
    ∃ t, (start [(1, 5)]).status = .running ∧ (start [(1, 5), (5, 9)]).status = (start [(1, 5)]).status
      ∧ (start [(1, 5), (5, 9)]).cfg = (start [(1, 5)]).cfg ∧ (start [(1, 5), (5, 9)]).pc = (start [(1, 5)]).pc
      ∧ (start [(1, 5), (5, 9)]).mem = (start [(1, 5)]).mem ∧ (start [(1, 5), (5, 9)]).out = (start [(1, 5)]).out
      ∧ (∀ r ∈ sources (.mac 3 1 2), (start [(1, 5), (5, 9)]).readReg r = (start [(1, 5)]).readReg r)
      ∧ exec (.mac 3 1 2) (start [(1, 5)]) = .next t ∧ t.status = .running :=
  ⟨_, rfl, rfl, rfl, rfl, rfl, rfl, by decide, rfl, rfl⟩

/-- `PcAdvancesByTheTable`: an instruction that raises nothing, and one that raises. -/
theorem witness_pc :
    (∃ t, (start []).status = .running ∧ exec (.jal 1 0) (start []) = .next t ∧ ∀ kind info, t.status ≠ .fatal kind info)
      ∧ (∃ t, exec (.ecall 0 0 0 0) (start []) = .next t ∧ t.status = .fatal .invalidEcall 0) :=
  ⟨⟨_, rfl, rfl, fun _ _ => nofun⟩, _, rfl, rfl⟩

/-- `AlignedOffsetsKeepThePcAligned`, `TraceIsAppendOnlyAndNeverRead`, `OnlyTheExitServiceExits`: a `jal` by 8 from an aligned pc. -/
theorem witness_aligned :
    (∃ t, step (at100 0x008000EF []) = .next t ∧ t.pc = 0x108) ∧ (at100 0x008000EF []).pc.toNat % 4 = 0
      ∧ decode Config.specDefault (wordAt (at100 0x008000EF []) 0x100) = .ok (.jal 1 0x00800)
      ∧ (nextPc (at100 0x008000EF []) (.jal 1 0x00800) - (at100 0x008000EF []).pc).toNat % 4 = 0 :=
  ⟨afterStep_some (look := fun t => t.pc) (by decide), by decide, by decide, by decide⟩

/-- `TransferOutsideMemoryRaisesAtTheNextFetch`: the `jal` of 95_test_vectors.md 2.7 that leaves memory. -/
theorem witness_transfer :
    (at100 0x800000EF []).status = .running ∧ (at100 0x800000EF []).pc.toNat + 4 ≤ Config.specDefault.memSize
      ∧ decode Config.specDefault (wordAt (at100 0x800000EF []) 0x100) = .ok (.jal 1 0x80000)
      ∧ Config.specDefault.memSize < (nextPc (at100 0x800000EF []) (.jal 1 0x80000)).toNat + 4 := by decide

/-- `StepRunsTheDecodedInstruction`: the last word of memory. -/
theorem witness_step :
    let s := State.withFetchWord { start [] with pc := 0xFFC } 32 0x002081B3
    s.status = .running ∧ s.pc.toNat + 4 ≤ s.cfg.memSize
      ∧ decodeBytes s.cfg [s.readByte s.pc.toNat, s.readByte (s.pc.toNat + 1), s.readByte (s.pc.toNat + 2),
        s.readByte (s.pc.toNat + 3)] = .ok (.add 3 1 2, []) := by decide

/-- `StepRaisesInTheOrderOfItsPoints`: a pc one byte past the last fetch, an unknown opcode, an illegal function code, and a
legal word that raises in execution. -/
theorem witness_points :
    Config.specDefault.memSize < ({ start [] with pc := 0xFFD } : State).pc.toNat + 4
      ∧ (wordAt (at100 0x0000007F []) 0x100).extractLsb' 0 7 ∉ knownOpcodes
      ∧ IllegalFunction Config.specDefault (wordAt (at100 0x0000C183 []) 0x100)
      ∧ ((wordAt (at100 0x0000A183 [(1, 0xFFD)]) 0x100).extractLsb' 0 7 ∈ knownOpcodes
        ∧ ¬ IllegalFunction Config.specDefault (wordAt (at100 0x0000A183 [(1, 0xFFD)]) 0x100)
        ∧ runPc (at100 0x0000A183 [(1, 0xFFD)]) = some (.fatal .outOfBoundsMemoryAccess 0xFFD,
          [.diagnostic .outOfBoundsMemoryAccess 0xFFD], 0x100)) := by
  refine ⟨by decide, by decide, ?_, by decide, ?_, by decide⟩ <;> unfold IllegalFunction <;> decide

/-- `FatalHaltIsPreciseAndFinal`: a store outside memory (program P8 of 95_test_vectors.md). -/
theorem witness_fatal : ∃ t, step (at100 0x0020A023 [(1, 0xFFFFFFFF), (2, 5)]) = .next t
    ∧ t.status = .fatal .outOfBoundsMemoryAccess 0xFFFFFFFF :=
  afterStep_some (look := fun t => t.status) (by decide)

/-- `OnlyTheExitServiceExits`: the exit, and its right-hand side. -/
theorem witness_exit :
    (∃ t, step (at100 0x00000073 [(10, 10)]) = .next t ∧ t.status = .exited)
      ∧ (at100 0x00000073 [(10, 10)]).pc.toNat + 4 ≤ Config.specDefault.memSize
      ∧ decode Config.specDefault (wordAt (at100 0x00000073 [(10, 10)]) 0x100) = .ok (.ecall 0 0 0 0)
      ∧ (at100 0x00000073 [(10, 10)]).readReg 10 = 10 :=
  ⟨afterStep_some (look := fun t => t.status) (by decide), by decide, by decide, by decide⟩

/-- `StatusGovernsTheRun`: parameters that meet R7, and an instruction that answers; `witness_fatal` has a fatal status under
the same parameters. -/
theorem witness_status : (start []).cfg.WellFormed ∧ ∃ t, exec (.add 3 1 2) (start []) = .next t :=
  ⟨by decide, _, rfl⟩

/-- `OnlyStoresWriteMemory`: a form that stores nothing and one that stores. -/
theorem witness_store_target :
    (start []).mem.wf ∧ storeTarget (start []) (.lw 3 1 0) = none
      ∧ storeTarget (start [(1, 4092)]) (.sw 1 2 0 0) = some (4092, .word)
      ∧ ∃ t, exec (.sw 1 2 0 0) (start [(1, 4092)]) = .next t :=
  ⟨by decide, by decide, by decide, exec_next _ _⟩

/-- Parameters with a loaded image. -/
def loaded : Config := { Config.specDefault with initMem := [(0, 0xB3), (4095, 1)] }

/-- `ResetGivesEveryPieceItsValue`, `ResetMeetsTheInvariant`: parameters that meet R7, a loaded and an unloaded byte. -/
theorem witness_reset : loaded.WellFormed ∧ (4095, 1) ∈ loaded.initMem ∧ ∀ b, (4094, b) ∉ loaded.initMem := by
  refine ⟨by decide, by decide, fun b hb => ?_⟩
  simp [loaded] at hb

theorem start_runInvariant : RunInvariant (start [(1, 5)]) :=
  ⟨by decide, by decide, by decide, by decide, nofun, nofun⟩

/-- `EveryStepKeepsTheInvariant`: a running state that meets the invariant and steps. -/
theorem witness_invariant : ∃ t, RunInvariant (start [(1, 5)]) ∧ step (start [(1, 5)]) = .next t := by
  obtain ⟨t, h, -⟩ := afterStep_some (s := start [(1, 5)]) (look := fun t => t.pc) (a := 0x100) (by decide)
  exact ⟨t, start_runInvariant, h⟩

/-- `PlacedWordIsFetchedNext`: the last pc in bounds. -/
theorem witness_placed :
    let s : State := { start [] with pc := 0xFFC }
    s.mem.wf ∧ s.status = .running ∧ s.pc.toNat + 4 ≤ s.cfg.memSize ∧ Instr.WellFormed s.cfg (.gep 3 1 2) := by decide

/-- `QuotientAndRemainderRecompose`: the pair next to the overflow pair, -2^31 and 1. -/
theorem witness_div :
    ∃ t u, ¬ ((start [(1, 0x80000000), (2, 1)]).cfg.x0Hardwired = true ∧ ((3 : Reg) = 0 ∨ (4 : Reg) = 0))
      ∧ (start [(1, 0x80000000), (2, 1)]).readReg 2 ≠ 0
      ∧ ¬ ((start [(1, 0x80000000), (2, 1)]).readReg 1 = 0x80000000 ∧ (start [(1, 0x80000000), (2, 1)]).readReg 2 = 0xFFFFFFFF)
      ∧ exec (.div 3 1 2) (start [(1, 0x80000000), (2, 1)]) = .next t
      ∧ exec (.rem 4 1 2) (start [(1, 0x80000000), (2, 1)]) = .next u :=
  ⟨_, _, by decide, by decide, by decide, rfl, rfl⟩

/-- `ProductHalvesRecompose`. -/
theorem witness_mul :
    ∃ t u, ¬ ((start [(1, 0x80000000)]).cfg.x0Hardwired = true ∧ ((3 : Reg) = 0 ∨ (4 : Reg) = 0))
      ∧ exec (.mul 3 1 1) (start [(1, 0x80000000)]) = .next t
      ∧ exec (.mulh 4 1 1) (start [(1, 0x80000000)]) = .next u :=
  ⟨_, _, by decide, rfl, rfl⟩

end Sys2Proof.Tests
end

section
/-!
PROOF. The invariant of a run: each operation a step is made of keeps it, hence so do every `Change` of an instruction and
every step (O48).
-/

namespace Sys2Proof.Machine

/-- A legal event appended to a legal trace leaves it legal (R19, R43). -/
theorem Event.legal_append {out : List Event} {e : Event} (h : ∀ e' ∈ out, e'.legal) (he : e.legal) :
    ∀ e' ∈ out ++ [e], e'.legal :=
  List.forall_mem_append.mpr ⟨h, List.forall_mem_singleton.mpr he⟩

/-- Under `X0_HARDWIRED` no write reaches the stored register 0: one to register 0 is discarded, any other goes elsewhere
(R32). -/
theorem State.regs_zero_writeReg {s : State} (hx : s.cfg.x0Hardwired = true) (i : Reg) (v : Word) :
    (s.writeReg i v).regs[0] = s.regs[0] := by
  by_cases hi : i = 0
  · simp [State.writeReg, (s.isHardZero_iff i).mpr ⟨hx, hi⟩]
  · have hz : ¬ s.isHardZero i = true := fun h => hi ((s.isHardZero_iff i).mp h).2
    have hn : i.toNat ≠ 0 := fun h0 => hi (BitVec.eq_of_toNat_eq h0)
    simp [State.writeReg, hz, hn]

namespace RunInvariant

/-! ### The operations of a step -/

variable {s t : State}

theorem setPc (h : RunInvariant s) (p : Word) : RunInvariant (s.setPc p) where
  parameters := h.parameters
  memory := h.memory
  extent := h.extent
  hardZero := h.hardZero
  events := h.events
  trace := h.trace

theorem advancePc (h : RunInvariant s) : RunInvariant s.advancePc := h.setPc _

theorem writeReg (h : RunInvariant s) (rd : Reg) (v : Word) : RunInvariant (s.writeReg rd v) where
  parameters := h.parameters
  memory := h.memory
  extent := h.extent
  hardZero hx := (State.regs_zero_writeReg (s := s) hx rd v).trans (h.hardZero hx)
  events := h.events
  trace := h.trace

/-- A write in bounds keeps memory canonical and within `MEM_SIZE` (R63, R65). -/
theorem writeBytes (h : RunInvariant s) {a n : Nat} (hb : a + n ≤ s.cfg.memSize) (v : Word) :
    RunInvariant { s with mem := s.mem.writeBytes a v n } where
  parameters := h.parameters
  memory := Memory.wf_writeBytes h.memory a v n
  extent := Memory.below_writeBytes h.extent hb v
  hardZero := h.hardZero
  events := h.events
  trace := h.trace

/-- A change of trace and status alone: the events must stay legal and the trace agree with the new status. -/
theorem setTrace (h : RunInvariant s) {out : List Event} {status : Status} (hl : ∀ e ∈ out, e.legal)
    (ht : TraceTellsStatus status out) : RunInvariant { s with out := out, status := status } where
  parameters := h.parameters
  memory := h.memory
  extent := h.extent
  hardZero := h.hardZero
  events := hl
  trace := ht

/-- While the run goes on, no event has ended it (R42). -/
theorem not_final (h : RunInvariant s) (hs : s.status = .running) : ∀ e ∈ s.out, ¬ e.final := by
  have ht := h.trace
  rwa [hs] at ht

/-- A running state may emit a legal event that does not end the run (R19, R43). -/
theorem emit (h : RunInvariant s) (hs : s.status = .running) {e : Event} (hl : e.legal) (hf : ¬ e.final) :
    RunInvariant (s.emit e) := by
  have ht : TraceTellsStatus s.status (s.out ++ [e]) := by
    rw [hs]
    exact List.forall_mem_append.mpr ⟨h.not_final hs, List.forall_mem_singleton.mpr hf⟩
  exact h.setTrace (Event.legal_append h.events hl) ht

/-- A raise ends a running state's trace in the diagnostic of its status (R262). -/
theorem raise (h : RunInvariant s) (hs : s.status = .running) (kind : FatalKind) (info : Word) :
    RunInvariant (s.raise kind info) :=
  h.setTrace (Event.legal_append h.events trivial) ⟨s.out, rfl, h.not_final hs⟩

theorem raiseRejected (h : RunInvariant s) (hs : s.status = .running) (why : Rejection) :
    RunInvariant (s.raiseRejected why) := by
  cases why with
  | invalidOpcode raw => exact h.raise hs _ _
  | invalidInstruction raw => exact h.raise hs _ _

/-- The exit service ends a running state's trace in the exit message (R250). -/
theorem exit (h : RunInvariant s) (hs : s.status = .running) : RunInvariant (s.emit .exitMessage).haltExited :=
  h.setTrace (Event.legal_append h.events trivial) ⟨s.out, rfl, h.not_final hs⟩

/-! ### Instructions and steps -/

/-- Every change an instruction can make to a running state keeps the invariant. -/
theorem of_change {i : Instr} (h : RunInvariant s) (hs : s.status = .running) (hc : Change i s t) : RunInvariant t := by
  cases hc with
  | register rd v p _ _ ht => exact ht ▸ (h.writeReg rd v).setPc p
  | jump _ _ _ ht => exact ht ▸ h.setPc _
  | store ea w v _ hb _ ht => exact ht ▸ (h.writeBytes hb v).advancePc
  | event e _ _ hl hf ht => exact ht ▸ (h.emit hs hl hf).advancePc
  | exit _ _ ht => exact ht ▸ h.exit hs
  | outOfBounds ea w _ _ ht => exact ht ▸ h.raise hs _ _
  | unknownService _ _ ht => exact ht ▸ h.raise hs _ _

/-- A step keeps the invariant: at the fetch and at a rejected word it raises, else it runs an instruction (R40). -/
theorem of_step (h : RunInvariant s) (hstep : step s = .next t) : RunInvariant t := by
  obtain ⟨hs, ⟨_, ht⟩ | ⟨_, why, _, ht⟩ | ⟨_, i, _, hexec⟩⟩ := step_cases hstep
  · exact ht ▸ h.raise hs _ _
  · exact ht ▸ h.raiseRejected hs why
  · exact h.of_change hs (exec_change hexec)

end RunInvariant

/-- Settles O48: each way a step can end (`step_cases`, `exec_change`) keeps the invariant. -/
theorem everyStepKeepsTheInvariant : Obligations.EveryStepKeepsTheInvariant :=
  fun _ _ h hstep => h.of_step hstep

end Sys2Proof.Machine
end

section
/-!
PROOF. Registers, memory and parameters at reset (O33, O46, O47), and the step as the decoded instruction (O39).
-/

namespace Sys2Proof.Machine

/-! ### The register file -/

/-- A register that is not the hard-wired one reads what was written to it (R31, R32). -/
theorem State.readReg_writeReg_of_not_hardZero {s : State} {r : Reg} (h : ¬ (s.cfg.x0Hardwired = true ∧ r = 0))
    (v : Word) : (s.writeReg r v).readReg r = v :=
  (s.readReg_writeReg_same r v).trans (if_neg h)

/-- The hard-wired register reads 0, whatever is stored (R31). -/
theorem State.readReg_zero_of_hardwired {s : State} (h : s.cfg.x0Hardwired = true) : s.readReg 0 = 0 :=
  if_pos ((s.isHardZero_iff 0).mpr ⟨h, rfl⟩)

/-- A write to the hard-wired register changes nothing at all (R32). -/
theorem State.writeReg_zero_of_hardwired {s : State} (h : s.cfg.x0Hardwired = true) (v : Word) :
    s.writeReg 0 v = s := by
  rw [State.writeReg, if_pos ((s.isHardZero_iff 0).mpr ⟨h, rfl⟩)]

/-- Settles O33: the reset value, the read after a write, and the hard-wired register. -/
theorem registerReadsGiveTheLastWrite : Obligations.RegisterReadsGiveTheLastWrite := by
  refine ⟨fun cfg r => State.readReg_resetWith r cfg, fun s r r' v hr => ?_,
    fun _ h => State.readReg_zero_of_hardwired h⟩
  by_cases he : r' = r
  · rw [if_pos he, he, State.readReg_writeReg_of_not_hardZero hr]
  · rw [if_neg he, s.readReg_writeReg_other r r' v he]

/-! ### A memory image read back -/

/-- A listed byte reads its value: no earlier cell has its address (R60). -/
theorem Memory.read_of_mem {m : Memory} (h : m.Pairwise (fun c d => c.1 < d.1)) {a : Nat} {b : Byte}
    (hm : (a, b) ∈ m) : m.read a = b := by
  induction m with
  | nil => cases hm
  | cons c m ih =>
    obtain ⟨hlt, htail⟩ := List.pairwise_cons.mp h
    rw [Memory.read_cons]
    rcases List.mem_cons.mp hm with rfl | hm
    · exact if_pos rfl
    · rw [if_neg (Nat.ne_of_lt (hlt _ hm)), ih htail hm]

/-- An address with no listed byte reads 0 (R60, R291). -/
theorem Memory.read_of_not_mem {m : Memory} {a : Nat} (h : ∀ b, (a, b) ∉ m) : m.read a = 0 := by
  induction m with
  | nil => rfl
  | cons c m ih =>
    have hne : c.1 ≠ a := fun he => h c.2 (he ▸ List.mem_cons_self)
    rw [Memory.read_cons, if_neg hne, ih fun b hb => h b (List.mem_cons_of_mem c hb)]

/-- Settles O46: memory is `INIT_MEM` read back, every other piece its `resetWith` value. -/
theorem resetGivesEveryPieceItsValue : Obligations.ResetGivesEveryPieceItsValue := by
  rintro cfg ⟨-, ⟨⟨hsorted, -⟩, -⟩, -⟩
  exact ⟨fun r => State.readReg_resetWith r cfg, rfl, fun _ _ hm => Memory.read_of_mem hsorted hm,
    fun _ hm => Memory.read_of_not_mem hm, rfl, rfl⟩

/-- Settles O47: the memory clauses are R7's on `INIT_MEM`, and the trace is empty. -/
theorem resetMeetsTheInvariant : Obligations.ResetMeetsTheInvariant := by
  intro cfg hwf
  obtain ⟨-, ⟨hcanonical, hbelow⟩, -⟩ := id hwf
  exact {
    parameters := hwf
    memory := hcanonical
    extent := hbelow
    hardZero := fun _ => by simp
    events := nofun
    trace := nofun }

/-! ### The decoded instruction -/

/-- Four bytes give an instruction exactly when their little-endian word does (R62, R100). -/
theorem decodeBytes_ok_iff {cfg : Config} {b0 b1 b2 b3 : Byte} {i : Instr} {rest rest' : List Byte} :
    decodeBytes cfg (b0 :: b1 :: b2 :: b3 :: rest) = .ok (i, rest')
      ↔ decode cfg (wordOfBytes b0 b1 b2 b3) = .ok i ∧ rest = rest' := by
  rw [decodeBytes]
  cases decode cfg (wordOfBytes b0 b1 b2 b3) <;> simp

/-- Settles O39: the four bytes at the pc are the word that `step` decodes. -/
theorem stepRunsTheDecodedInstruction : Obligations.StepRunsTheDecodedInstruction :=
  fun _ _ hs hb hd => step_exec hs hb (decodeBytes_ok_iff.mp hd).1

end Sys2Proof.Machine
end

section
/-!
PROOF. What each `Change` of an instruction says of registers, pc and status, and of a step through it (O34, O36, O37, O43).
-/

namespace Sys2Proof.Machine

/-! ### The destination (R32) -/

/-- An instruction leaves every register but its destination as it was. -/
theorem Change.readReg_of_ne {i : Instr} {s t : State} (hc : Change i s t) {r : Reg} (hr : destination i ≠ some r) :
    t.readReg r = s.readReg r := by
  cases hc with
  | register rd v p hd _ ht =>
    have hne : r ≠ rd := fun he => hr (he ▸ hd)
    rw [ht, State.readReg_setPc, s.readReg_writeReg_other rd r v hne]
  | jump _ _ _ ht => rw [ht, State.readReg_setPc]
  | store _ _ _ _ _ _ ht => rw [ht, State.readReg_advancePc]; exact State.readReg_congr r rfl rfl
  | event _ _ _ _ _ ht => rw [ht, State.readReg_advancePc, State.readReg_emit]
  | exit _ _ ht => rw [ht, State.readReg_haltExited, State.readReg_emit]
  | outOfBounds _ _ _ _ ht => rw [ht, State.readReg_raise]
  | unknownService _ _ ht => rw [ht, State.readReg_raise]

/-- Settles O34: by cases on the `Change`, and the laws of the register write. -/
theorem onlyTheDestinationIsWritten : Obligations.OnlyTheDestinationIsWritten :=
  ⟨fun _ _ _ h _ hr => (exec_change h).readReg_of_ne hr,
    fun _ _ v h => State.readReg_writeReg_of_not_hardZero h v,
    fun _ v h => State.writeReg_zero_of_hardwired h v⟩

/-! ### The program counter (R37, R38) -/

theorem nextPc_of_isEcall {i : Instr} (hi : IsEcall i) (s : State) :
    nextPc s i = if s.readReg 10 = 10 then s.pc else s.pc + 4 := by
  obtain ⟨_, _, _, _, rfl⟩ := hi
  rfl

/-- The run ended in a fatal halt (R262). -/
def Status.IsFatal (st : Status) : Prop := ∃ kind info, st = .fatal kind info

/-- From a running state an instruction either raises and keeps the pc, or moves it by the table of R37. -/
theorem Change.pc_cases {i : Instr} {s t : State} (hs : s.status = .running) (hc : Change i s t) :
    (t.status.IsFatal ∧ t.pc = s.pc) ∨ (¬ t.status.IsFatal ∧ t.pc = nextPc s i) := by
  have hrun : ¬ s.status.IsFatal := by rw [hs]; exact nofun
  cases hc with
  | register rd v p _ hp ht => exact .inr (ht ▸ ⟨hrun, hp⟩)
  | jump _ _ _ ht => exact .inr (ht ▸ ⟨hrun, rfl⟩)
  | store ea w v _ _ hp ht => exact .inr (ht ▸ ⟨hrun, hp.symm⟩)
  | event e hi hn _ _ ht => exact .inr (ht ▸ ⟨hrun, by rw [nextPc_of_isEcall hi, if_neg hn]; rfl⟩)
  | exit hi hn ht => exact .inr (ht ▸ ⟨nofun, by rw [nextPc_of_isEcall hi, if_pos hn]; rfl⟩)
  | outOfBounds ea w _ _ ht => exact .inl (ht ▸ ⟨⟨_, _, rfl⟩, rfl⟩)
  | unknownService _ _ ht => exact .inl (ht ▸ ⟨⟨_, _, rfl⟩, rfl⟩)

/-- Settles O36: every instruction answers, and its `Change` moves the pc by the table or raises. -/
theorem pcAdvancesByTheTable : Obligations.PcAdvancesByTheTable := by
  intro i s hs
  obtain ⟨t, ht⟩ := exec_next i s
  refine ⟨t, ht, ?_⟩
  obtain ⟨hf, hpc⟩ | ⟨hf, hpc⟩ := (exec_change ht).pc_cases hs
  · obtain ⟨kind, info, hst⟩ := hf
    exact ⟨fun hn => absurd hst (hn kind info), fun _ => hpc⟩
  · exact ⟨fun _ => hpc, fun hst => absurd hst hf⟩

theorem State.raiseRejected_pc (s : State) (why : Rejection) : (s.raiseRejected why).pc = s.pc := by
  cases why <;> rfl

/-- A step leaves the pc or moves it by the table of R37 for the instruction at it. -/
theorem step_pc_cases {s t : State} (h : step s = .next t) :
    t.pc = s.pc ∨ ∃ i, decode s.cfg (wordAt s s.pc.toNat) = .ok i ∧ t.pc = nextPc s i := by
  obtain ⟨hs, ⟨-, ht⟩ | ⟨-, why, -, ht⟩ | ⟨-, i, hd, hexec⟩⟩ := step_cases h
  · exact .inl (ht ▸ rfl)
  · exact .inl (ht ▸ s.raiseRejected_pc why)
  · obtain ⟨-, hpc⟩ | ⟨-, hpc⟩ := (exec_change hexec).pc_cases hs
    · exact .inl hpc
    · exact .inr ⟨i, hd, hpc⟩

/-- A word that is a multiple of 4 plus a multiple of 4 is one: 4 divides 2^32. -/
theorem Word.mod_four_of_sub {p q : Word} (hp : p.toNat % 4 = 0) (hd : (q - p).toNat % 4 = 0) : q.toNat % 4 = 0 := by
  rw [BitVec.toNat_sub] at hd
  have := p.isLt
  omega

/-- Settles O37: the pc after a step is the pc before it or the table's. -/
theorem alignedOffsetsKeepThePcAligned : Obligations.AlignedOffsetsKeepThePcAligned := by
  intro s t hp h hoff
  obtain hpc | ⟨i, hd, hpc⟩ := step_pc_cases h
  · rw [hpc, hp]
  · rw [hpc]
    exact Word.mod_four_of_sub hp (hoff i hd)

/-! ### The exit (R41, R250) -/

theorem not_isEcall_of_destination {i : Instr} {rd : Reg} (h : destination i = some rd) : ¬ IsEcall i := by
  rintro ⟨_, _, _, _, rfl⟩
  cases h

theorem not_isEcall_of_storeTarget {i : Instr} {s : State} {x : Word × Width} (h : storeTarget s i = some x) :
    ¬ IsEcall i := by
  rintro ⟨_, _, _, _, rfl⟩
  cases h

/-- From a running state an instruction exits exactly when it is an `ecall` with the number 10 (R250). -/
theorem Change.exited_iff {i : Instr} {s t : State} (hs : s.status = .running) (hc : Change i s t) :
    t.status = .exited ↔ IsEcall i ∧ s.readReg 10 = 10 := by
  have hrun : s.status ≠ .exited := by rw [hs]; exact nofun
  cases hc with
  | register rd v p hd _ ht => exact iff_of_false (ht ▸ hrun) fun h => not_isEcall_of_destination hd h.1
  | jump _ _ hi ht => exact iff_of_false (ht ▸ hrun) fun h => hi h.1
  | store ea w v hm _ _ ht => exact iff_of_false (ht ▸ hrun) fun h => not_isEcall_of_storeTarget hm h.1
  | event e _ hn _ _ ht => exact iff_of_false (ht ▸ hrun) fun h => hn h.2
  | exit hi hn ht => exact iff_of_true (ht ▸ rfl) ⟨hi, hn⟩
  | outOfBounds ea w hm _ ht =>
    refine iff_of_false (ht ▸ nofun) ?_
    rintro ⟨⟨_, _, _, _, rfl⟩, -⟩
    cases hm
  | unknownService _ hn ht =>
    refine iff_of_false (ht ▸ nofun) fun h => hn ?_
    rw [h.2]
    decide

theorem State.raiseRejected_status_ne_exited (s : State) (why : Rejection) : (s.raiseRejected why).status ≠ .exited := by
  cases why <;> exact nofun

/-- Settles O43: a raise of the step itself is no exit, and the instruction's `Change` decides the rest. -/
theorem onlyTheExitServiceExits : Obligations.OnlyTheExitServiceExits := by
  intro s t h
  obtain ⟨hs, ⟨hb, ht⟩ | ⟨-, why, hd, ht⟩ | ⟨hb, i, hd, hexec⟩⟩ := step_cases h
  · exact iff_of_false (ht ▸ nofun) fun hr => by omega
  · refine iff_of_false (ht ▸ s.raiseRejected_status_ne_exited why) ?_
    rintro ⟨-, ⟨i, hi, -⟩, -⟩
    cases hd.symm.trans hi
  · rw [(exec_change hexec).exited_iff hs]
    constructor
    · rintro ⟨hi, hn⟩
      exact ⟨hb, ⟨i, hd, hi⟩, hn⟩
    · rintro ⟨-, ⟨j, hj, hi⟩, hn⟩
      cases hd.symm.trans hj
      exact ⟨hi, hn⟩

end Sys2Proof.Machine
end

section
/-!
PROOF. What an instruction reads: its effect is determined by the parameters, the pc, memory and its source registers, and
is applied without looking at status, trace or any other register (O35, O42, O44).
-/

namespace Sys2Proof.Machine

/-! ### Effects -/

/-- What an instruction does to a state, every value it needed already read: the kinds of `Change` as data. -/
inductive Effect where
  /-- A write of `v` to `x[rd]`, the pc at `p`. -/
  | register (rd : Reg) (v p : Word)
  /-- A branch to `p`. -/
  | jump (p : Word)
  /-- A store that leaves memory at `m`. -/
  | store (m : Memory)
  /-- An `ecall` service that goes on. -/
  | event (e : Event)
  /-- The exit service. -/
  | exit
  /-- A fatal halt. -/
  | raise (kind : FatalKind) (info : Word)

namespace Effect

/-- The state an effect makes of a state. -/
def apply : Effect → State → State
  | register rd v p, s => (s.writeReg rd v).setPc p
  | jump p, s => s.setPc p
  | store m, s => State.advancePc { s with mem := m }
  | event e, s => (s.emit e).advancePc
  | exit, s => (s.emit .exitMessage).haltExited
  | raise kind info, s => s.raise kind info

/-- The events an effect appends to the trace. -/
def events : Effect → List Event
  | register _ _ _ | jump _ | store _ => []
  | event e => [e]
  | exit => [.exitMessage]
  | raise kind info => [.diagnostic kind info]

/-- An effect may be one of the instruction: unless it raises, it writes exactly the destination. -/
def Fits (i : Instr) : Effect → Prop
  | register rd _ _ => destination i = some rd
  | jump _ | store _ | event _ | exit => destination i = none
  | raise _ _ => True

theorem length_events_le (E : Effect) : E.events.length ≤ 1 := by
  cases E with
  | register | jump | store => exact Nat.zero_le 1
  | event | exit | raise => exact Nat.le_refl 1

theorem apply_out (E : Effect) (s : State) : (E.apply s).out = s.out ++ E.events := by
  cases E with
  | register | jump | store => exact (List.append_nil _).symm
  | event | exit | raise => rfl

/-- An effect does not look at the trace it appends to (R43). -/
theorem apply_withOut (E : Effect) (s : State) (before : List Event) :
    E.apply { s with out := before } = { E.apply s with out := before ++ E.events } := by
  cases E with
  | register | jump | store => rw [events, List.append_nil]; rfl
  | event | exit | raise => rfl

/-- An effect keeps alike two states that are alike in all but their registers. -/
theorem apply_congr (E : Effect) {s s' : State} (hst : s'.status = s.status) (hc : s'.cfg = s.cfg) (hp : s'.pc = s.pc)
    (hm : s'.mem = s.mem) (ho : s'.out = s.out) :
    (E.apply s').status = (E.apply s).status ∧ (E.apply s').cfg = (E.apply s).cfg ∧ (E.apply s').pc = (E.apply s).pc
      ∧ (E.apply s').mem = (E.apply s).mem ∧ (E.apply s').out = (E.apply s).out := by
  obtain ⟨cfg, regs, pc, mem, status, out⟩ := s
  obtain ⟨cfg', regs', pc', mem', status', out'⟩ := s'
  cases hst; cases hc; cases hp; cases hm; cases ho
  cases E <;> exact ⟨rfl, rfl, rfl, rfl, rfl⟩

/-- The destination reads alike after the same effect on states with the same parameters, unless the effect raises. -/
theorem readReg_apply_destination {E : Effect} {i : Instr} (hE : E.Fits i) {s s' : State} (hc : s'.cfg = s.cfg)
    (hrun : (E.apply s).status = .running) {rd : Reg} (hd : destination i = some rd) :
    (E.apply s').readReg rd = (E.apply s).readReg rd := by
  cases E with
  | register rd' v p =>
    cases hd.symm.trans hE
    simp only [apply, State.readReg_setPc, State.readReg_writeReg_same, hc]
  | jump | store | event | exit => cases hd.symm.trans hE
  | raise => cases hrun

end Effect

/-! ### The inputs of an instruction (R35) -/

/-- Two states give the instruction the same inputs: parameters, pc, memory and its source registers. -/
structure SameInputs (i : Instr) (s s' : State) : Prop where
  cfg : s'.cfg = s.cfg
  pc : s'.pc = s.pc
  mem : s'.mem = s.mem
  regs : ∀ r ∈ sources i, s'.readReg r = s.readReg r

theorem SameInputs.refl (i : Instr) (s : State) : SameInputs i s s := ⟨rfl, rfl, rfl, fun _ _ => rfl⟩

/-- Status and trace are no inputs (R42, R43). -/
theorem SameInputs.of_status_out (i : Instr) (s : State) (st : Status) (out : List Event) :
    SameInputs i s { s with status := st, out := out } :=
  ⟨rfl, rfl, rfl, fun r _ => State.readReg_congr r rfl rfl⟩

/-- `E` is the effect of the instruction in `s` and in every state with the same inputs. -/
structure HasEffect (i : Instr) (s : State) (E : Effect) : Prop where
  fits : E.Fits i
  exec_eq : ∀ s', SameInputs i s s' → exec i s' = .next (E.apply s')

/-! ### The effect of each instruction form -/

section
variable {i : Instr} {rd rs1 rs2 : Reg}

/-- A register write whose value and pc are functions of the inputs. -/
theorem HasEffect.of_register (s : State) (hd : destination i = some rd) {value next : State → Word}
    (hi : ∀ u, exec i u = .next ((u.writeReg rd (value u)).setPc (next u)))
    (hv : ∀ s', SameInputs i s s' → value s' = value s) (hn : ∀ s', SameInputs i s s' → next s' = next s) :
    HasEffect i s (.register rd (value s) (next s)) :=
  ⟨hd, fun s' h => by rw [hi, hv s' h, hn s' h]; rfl⟩

/-- A write-back whose value is a function of the inputs (R34, R37). -/
theorem HasEffect.of_writeBack (s : State) (hd : destination i = some rd) {value : State → Word}
    (hi : ∀ u, exec i u = .next (u.writeBack rd (value u)))
    (hv : ∀ s', SameInputs i s s' → value s' = value s) :
    HasEffect i s (.register rd (value s) (s.pc + 4)) :=
  .of_register s hd hi hv fun _ h => congrArg (· + 4) h.pc

/-- A load's address, bounds and bytes come from its inputs (R195). -/
theorem execLoad_hasEffect (s : State) {w : Width} {imm : Word} (hi : ∀ u, exec i u = execLoad w rd rs1 imm u)
    (hd : destination i = some rd) (hr : sources i = [rs1]) : ∃ E, HasEffect i s E := by
  have ha : ∀ s', SameInputs i s s' → s'.loadAddress rs1 imm = s.loadAddress rs1 imm :=
    fun s' h => congrArg (· + imm) (h.regs rs1 (by simp [hr]))
  by_cases hb : (s.loadAddress rs1 imm).toNat + w.bytes ≤ s.cfg.memSize
  · refine ⟨.register rd (signExtend (s.mem.readBytes (s.loadAddress rs1 imm).toNat w.bytes) (8 * w.bytes)) (s.pc + 4),
      hd, fun s' h => ?_⟩
    rw [hi, execLoad_inBounds (by rw [ha s' h, h.cfg]; exact hb), ha s' h, h.mem, ← h.pc]
    rfl
  · refine ⟨.raise .outOfBoundsMemoryAccess (s.loadAddress rs1 imm), trivial, fun s' h => ?_⟩
    rw [hi, execLoad_outOfBounds (by rw [ha s' h, h.cfg]; omega), ha s' h]
    rfl

/-- A store's address, bounds and bytes come from its inputs (R205). -/
theorem execStore_hasEffect (s : State) {w : Width} {imm5 : BitVec 5} {imm7 : BitVec 7}
    (hi : ∀ u, exec i u = execStore w rs1 rs2 imm5 imm7 u) (hd : destination i = none)
    (hr : sources i = [rs1, rs2]) : ∃ E, HasEffect i s E := by
  have ha : ∀ s', SameInputs i s s' → s'.storeAddress rs1 imm5 imm7 = s.storeAddress rs1 imm5 imm7 :=
    fun s' h => congrArg (· + storeOffset imm5 imm7) (h.regs rs1 (by simp [hr]))
  by_cases hb : (s.storeAddress rs1 imm5 imm7).toNat + w.bytes ≤ s.cfg.memSize
  · refine ⟨.store (s.mem.writeBytes (s.storeAddress rs1 imm5 imm7).toNat (s.readReg rs2) w.bytes), hd, fun s' h => ?_⟩
    rw [hi, execStore_inBounds (by rw [ha s' h, h.cfg]; exact hb), ha s' h, h.mem, h.regs rs2 (by simp [hr])]
    rfl
  · refine ⟨.raise .outOfBoundsMemoryAccess (s.storeAddress rs1 imm5 imm7), trivial, fun s' h => ?_⟩
    rw [hi, execStore_outOfBounds (by rw [ha s' h, h.cfg]; omega), ha s' h]
    rfl

/-- A branch's condition and target come from its inputs (R215). -/
theorem execBranch_hasEffect (s : State) {imm5 : BitVec 5} {imm7 : BitVec 7} (taken : Word → Word → Bool)
    (hi : ∀ u, exec i u = execBranch (taken (u.readReg rs1) (u.readReg rs2)) imm5 imm7 u)
    (hd : destination i = none) (hr : sources i = [rs1, rs2]) : ∃ E, HasEffect i s E := by
  refine ⟨.jump (if taken (s.readReg rs1) (s.readReg rs2) then s.pc + branchOffset imm5 imm7 else s.pc + 4), hd,
    fun s' h => ?_⟩
  rw [hi, h.regs rs1 (by simp [hr]), h.regs rs2 (by simp [hr]), ← h.pc]
  cases taken (s.readReg rs1) (s.readReg rs2) <;> rfl

end

theorem State.cstring_congr {s s' : State} (hc : s'.cfg = s.cfg) (hm : s'.mem = s.mem) (a : Word) :
    s'.cstring a = s.cstring a := by
  rw [State.cstring, State.cstring, hc, hm]

/-- The service and its argument come from `x[10]` and `x[11]`, the string from memory (R245 to R251). -/
theorem execEcall_hasEffect (s : State) (rd rs1 : Reg) (funct3 : BitVec 3) (imm12 : BitVec 12) :
    ∃ E, HasEffect (.ecall rd rs1 funct3 imm12) s E := by
  have hn : ∀ s', SameInputs (.ecall rd rs1 funct3 imm12) s s' → s'.readReg 10 = s.readReg 10 :=
    fun s' h => h.regs 10 (by simp [sources])
  have ha : ∀ s', SameInputs (.ecall rd rs1 funct3 imm12) s s' → s'.readReg 11 = s.readReg 11 :=
    fun s' h => h.regs 11 (by simp [sources])
  by_cases h1 : s.readReg 10 = 1
  · refine ⟨.event (.printInt (s.readReg 11).toInt), rfl, fun s' h => ?_⟩
    rw [exec, execEcall_printInt ((hn s' h).trans h1), ha s' h]
    rfl
  by_cases h4 : s.readReg 10 = 4
  · refine ⟨.event (.printString (s.cstring (s.readReg 11))), rfl, fun s' h => ?_⟩
    rw [exec, execEcall_printString ((hn s' h).trans h4), ha s' h, State.cstring_congr h.cfg h.mem]
    rfl
  by_cases h10 : s.readReg 10 = 10
  · refine ⟨.exit, rfl, fun s' h => ?_⟩
    rw [exec, execEcall_exit ((hn s' h).trans h10)]
    rfl
  by_cases h11 : s.readReg 10 = 11
  · refine ⟨.event (.printChar ((s.readReg 11).extractLsb' 0 8)), rfl, fun s' h => ?_⟩
    rw [exec, execEcall_printChar ((hn s' h).trans h11), ha s' h]
    rfl
  refine ⟨.raise .invalidEcall (s.readReg 10), trivial, fun s' h => ?_⟩
  rw [← hn s' h] at h1 h4 h10 h11 ⊢
  rw [exec, execEcall_unknown h1 h4 h10 h11]
  rfl

/-- Every instruction has an effect that its inputs determine: it reads nothing else (R35). -/
theorem exec_hasEffect (i : Instr) (s : State) : ∃ E, HasEffect i s E := by
  cases i with
  | add | sub | mul | sll | mulh | slt | xor | div | srl | sra | or | rem | and
  | addi | slli | slti | xori | srli | srai | ori | andi
  | mac | acc | gep =>
    refine ⟨_, .of_writeBack s rfl (fun _ => rfl) fun s' h => ?_⟩
    have hr := h.regs
    simp only [sources, List.forall_mem_cons] at hr
    simp only [hr]
  | lui => exact ⟨_, .of_writeBack s rfl (fun _ => rfl) fun _ _ => rfl⟩
  | lb | lh | lw => exact execLoad_hasEffect s (fun _ => rfl) rfl rfl
  | sb | sh | sw => exact execStore_hasEffect s (fun _ => rfl) rfl rfl
  | beq => exact execBranch_hasEffect s equalCond (fun _ => rfl) rfl rfl
  | bne => exact execBranch_hasEffect s (fun a b => !equalCond a b) (fun _ => rfl) rfl rfl
  | jal rd imm20 =>
    exact ⟨_, .of_register s rfl (fun _ => rfl) (fun _ h => congrArg (· + 4) h.pc)
      (fun _ h => congrArg (· + jumpOffset imm20) h.pc)⟩
  | ecall => exact execEcall_hasEffect ..

/-- Settles O35: the two states have the same inputs, hence the same effect. -/
theorem instructionsReadOnlyTheirSources : Obligations.InstructionsReadOnlyTheirSources := by
  intro i s s' t _ hst hc hp hm ho hr hexec
  obtain ⟨E, hE⟩ := exec_hasEffect i s
  cases hexec.symm.trans (hE.exec_eq s (.refl i s))
  obtain ⟨h1, h2, h3, h4, h5⟩ := E.apply_congr hst hc hp hm ho
  exact ⟨E.apply s', hE.exec_eq s' ⟨hc, hp, hm, hr⟩, h1, h2, h3, h4, h5,
    fun hrun _ hd => Effect.readReg_apply_destination hE.fits hc hrun hd⟩

/-! ### The status (R42) -/

/-- A running state always steps. -/
theorem step_next {s : State} (hs : s.status = .running) : ∃ t, step s = .next t := by
  by_cases hb : s.pc.toNat + 4 ≤ s.cfg.memSize
  · cases hd : decode s.cfg (wordAt s s.pc.toNat) with
    | error why => exact ⟨_, step_rejected hs hb hd⟩
    | ok i => rw [step_exec hs hb hd]; exact exec_next i s
  · exact ⟨_, step_fetch_none hs (by omega)⟩

theorem step_notRunning {s : State} (hs : s.status ≠ .running) : step s = .fault .notRunning := by
  unfold step
  cases h : s.status with
  | running => exact absurd h hs
  | exited => rfl
  | fatal kind info => rfl

theorem step_fault_iff (s : State) : s.status ≠ .running ↔ step s = .fault .notRunning := by
  refine ⟨step_notRunning, fun h hs => ?_⟩
  obtain ⟨t, ht⟩ := step_next hs
  cases h.symm.trans ht

/-- The status output reports the status: `FAIL_STATUS` differs from the 0 of `Exited` (R42, R262). -/
theorem State.processStatus_iff {s : State} (hf : s.cfg.failStatus ≠ 0) :
    (s.status = .exited ↔ s.processStatus = some 0) ∧ (s.status = .running ↔ s.processStatus = none)
      ∧ ∀ kind info, s.status = .fatal kind info → s.processStatus = some s.cfg.failStatus ∧ s.cfg.failStatus ≠ 0 := by
  unfold State.processStatus
  cases s.status <;> simp [hf]

/-- Settles O42: the status is no input of an instruction, and `step` and the status output are read off by cases. -/
theorem statusGovernsTheRun : Obligations.StatusGovernsTheRun := by
  refine ⟨fun _ => rfl, step_fault_iff, fun i s t st hexec => ?_, fun s hwf => ?_⟩
  · obtain ⟨E, hE⟩ := exec_hasEffect i s
    cases hexec.symm.trans (hE.exec_eq s (.refl i s))
    refine ⟨_, hE.exec_eq _ (.of_status_out i s st s.out), ?_⟩
    cases E <;> exact ⟨rfl, rfl, rfl, rfl, rfl⟩
  · obtain ⟨-, -, -, hfail⟩ := hwf
    exact State.processStatus_iff hfail

/-! ### The trace (R43) -/

/-- The raise of a rejected word is an effect (R120, R121). -/
theorem raiseRejected_effect (why : Rejection) : ∃ E : Effect, ∀ s : State, s.raiseRejected why = E.apply s := by
  cases why with
  | invalidOpcode raw => exact ⟨.raise .invalidOpcode raw, fun _ => rfl⟩
  | invalidInstruction raw => exact ⟨.raise .invalidInstruction raw, fun _ => rfl⟩

/-- A step has one effect, whatever the trace before it. -/
theorem step_effect {s t : State} (h : step s = .next t) : ∃ E : Effect, t = E.apply s
    ∧ ∀ before, step { s with out := before } = .next (E.apply { s with out := before }) := by
  obtain ⟨hs, ⟨hb, ht⟩ | ⟨hb, why, hd, ht⟩ | ⟨hb, i, hd, hexec⟩⟩ := step_cases h
  · exact ⟨.raise .outOfBoundsMemoryAccess s.pc, ht, fun before => step_fetch_none hs hb⟩
  · obtain ⟨E, hE⟩ := raiseRejected_effect why
    exact ⟨E, ht.trans (hE s), fun before => by rw [← hE]; exact step_rejected hs hb hd⟩
  · obtain ⟨E, hE⟩ := exec_hasEffect i s
    have ht : t = E.apply s := Host.Outcome.next.inj (hexec.symm.trans (hE.exec_eq s (.refl i s)))
    refine ⟨E, ht, fun before => ?_⟩
    rw [step_exec (s := { s with out := before }) hs hb hd]
    exact hE.exec_eq _ (.of_status_out i s s.status before)

/-- Settles O44: a step has one effect, which appends its events to whatever trace it finds. -/
theorem traceIsAppendOnlyAndNeverRead : Obligations.TraceIsAppendOnlyAndNeverRead := by
  refine ⟨fun _ => rfl, fun s t h => ?_⟩
  obtain ⟨E, rfl, hany⟩ := step_effect h
  exact ⟨E.events, E.length_events_le, E.apply_out s, fun before => (hany before).trans (by rw [E.apply_withOut])⟩

end Sys2Proof.Machine
end

section
/-!
PROOF. The memory port (20_memory.md R60 to R67): the little-endian value of a read, what a write changes and leaves, every
view of the bytes a write left, and what loads, the fetch and other instructions see of a store (O28 to O32, O45).
-/

namespace Sys2Proof.Machine

/-! ### The number a read gives (R62, R64) -/

/-- A read of `n` bytes has no bit above them. -/
theorem Memory.toNat_readBytes_lt (m : Memory) (a : Nat) {n : Nat} (hn : n ≤ 4) :
    (m.readBytes a n).toNat < 2 ^ (8 * n) := by
  refine Nat.lt_pow_two_of_testBit _ fun j hj => ?_
  rw [← BitVec.getLsbD, Memory.getLsbD_readBytes m a hn, decide_eq_false (by omega), Bool.false_and]

/-- One more byte adds its value at the next place: it lies above all bits of the bytes before it. -/
theorem Memory.toNat_readBytes_succ (m : Memory) (a : Nat) {n : Nat} (hn : n + 1 ≤ 4) :
    (m.readBytes a (n + 1)).toNat = (m.readBytes a n).toNat + (m.read (a + n)).toNat * 256 ^ n := by
  have hlow : (m.readBytes a n).toNat < 2 ^ (8 * n) := m.toNat_readBytes_lt a (by omega)
  have hbyte : (m.read (a + n)).toNat < 2 ^ 8 := (m.read (a + n)).isLt
  have hfit : (m.read (a + n)).toNat <<< (8 * n) < 2 ^ 32 := by
    calc (m.read (a + n)).toNat <<< (8 * n)
      _ = (m.read (a + n)).toNat * 2 ^ (8 * n) := Nat.shiftLeft_eq ..
      _ < 2 ^ 8 * 2 ^ (8 * n) := Nat.mul_lt_mul_of_pos_right hbyte (by positivity)
      _ = 2 ^ (8 + 8 * n) := (Nat.pow_add ..).symm
      _ ≤ 2 ^ 32 := Nat.pow_le_pow_right (by decide) (by omega)
  rw [Memory.readBytes, BitVec.toNat_or, BitVec.toNat_shiftLeft, BitVec.toNat_setWidth_of_le (by decide),
    Nat.mod_eq_of_lt hfit, Nat.or_comm, ← Nat.shiftLeft_add_eq_or_of_lt hlow, Nat.shiftLeft_eq, Nat.pow_mul,
    Nat.add_comm]

/-- The 256-adic digits of a read are its bytes. -/
theorem Memory.toNat_readBytes (m : Memory) (a : Nat) {n : Nat} (hn : n ≤ 4) :
    (m.readBytes a n).toNat = ((List.range n).map fun k => (m.read (a + k)).toNat * 256 ^ k).sum := by
  induction n with
  | zero => rfl
  | succ n ih => rw [m.toNat_readBytes_succ a hn, ih (by omega), List.range_succ]; simp

/-- Settles O28: the port's bounds, and the digits of `readBytes`. -/
theorem memReadIsLittleEndian : Obligations.MemReadIsLittleEndian :=
  fun s addr w => ⟨s.memRead_none addr w, fun h => ⟨_, s.memRead_eq addr w h, s.mem.toNat_readBytes _ w.bytes_le⟩⟩

/-! ### What a write changes (R63, R65) -/

/-- Settles O29: the port's bounds, and the laws of `writeBytes` inside and outside its bytes. -/
theorem memWriteChangesItsBytesOnly : Obligations.MemWriteChangesItsBytesOnly :=
  fun s addr w v hwf => ⟨s.memWrite_none addr w v, fun h => ⟨_, s.memWrite_eq addr w v h,
    fun _ hk => Memory.read_writeBytes_inside hwf _ v hk, fun _ hx => Memory.read_writeBytes_outside hwf v hx,
    Memory.wf_writeBytes hwf .., rfl⟩⟩

/-! ### Views of the bytes just written (R62) -/

/-- Any `n` bytes among `l` just written show their slice of the value. -/
theorem Memory.readBytes_writeBytes_slice {m : Memory} (h : m.wf) (a : Nat) (v : Word) {k n l : Nat} (hn : n ≤ 4)
    (hkn : k + n ≤ l) :
    (m.writeBytes a v l).readBytes (a + k) n = (v.extractLsb' (8 * k) (8 * n)).setWidth 32 := by
  apply BitVec.eq_of_getLsbD_eq
  intro j hj
  rw [Memory.getLsbD_readBytes _ _ hn, BitVec.getLsbD_setWidth, BitVec.getLsbD_extractLsb']
  by_cases hjn : j < 8 * n
  · rw [Nat.add_assoc, Memory.read_writeBytes_inside h a v (by omega : k + j / 8 < l), byteOf,
      BitVec.getLsbD_extractLsb', show 8 * (k + j / 8) + j % 8 = 8 * k + j by omega]
    simp [hjn, hj, show j % 8 < 8 by omega]
  · simp [hjn]

/-- A word just written reads back whole. -/
theorem Memory.readBytes_writeBytes_word {m : Memory} (h : m.wf) (a : Nat) (v : Word) :
    (m.writeBytes a v 4).readBytes a 4 = v :=
  (Memory.readBytes_writeBytes_slice h a v (k := 0) (Nat.le_refl 4) (Nat.le_refl 4)).trans (by simp)

/-- An offset within an access that ends by 2^32 does not wrap. -/
theorem Word.toNat_add_ofNat {addr : Word} {k : Nat} (h : addr.toNat + k < 2 ^ 32) :
    (addr + BitVec.ofNat 32 k).toNat = addr.toNat + k := by
  rw [BitVec.toNat_add, BitVec.toNat_ofNat, Nat.add_mod_mod, Nat.mod_eq_of_lt h]

/-- A write through the port that answers was in bounds, and left these bytes. -/
theorem State.memWrite_some {s t : State} {addr v : Word} {w : Width} (h : s.memWrite addr w v = some t) :
    addr.toNat + w.bytes ≤ s.cfg.memSize ∧ t = { s with mem := s.mem.writeBytes addr.toNat v w.bytes } := by
  by_cases hb : addr.toNat + w.bytes ≤ s.cfg.memSize
  · rw [s.memWrite_eq addr w v hb] at h
    exact ⟨hb, (Option.some.inj h).symm⟩
  · rw [s.memWrite_none addr w v (by omega)] at h
    cases h

/-- A read through the port within the bytes of the write before it gives their slice of the value. -/
theorem State.memRead_of_memWrite {s t : State} {addr v : Word} {w' : Width} (hsize : s.cfg.memSize ≤ 2 ^ 32)
    (hwf : s.mem.wf) (h : s.memWrite addr w' v = some t) {k : Nat} {w : Width} (hk : k + w.bytes ≤ w'.bytes) :
    t.memRead (addr + BitVec.ofNat 32 k) w = some ((v.extractLsb' (8 * k) (8 * w.bytes)).setWidth 32) := by
  obtain ⟨hb, ht⟩ := State.memWrite_some h
  have hpos := w.bytes_pos
  have hcfg : t.cfg = s.cfg := ht ▸ rfl
  have haddr : (addr + BitVec.ofNat 32 k).toNat = addr.toNat + k := Word.toNat_add_ofNat (by omega)
  rw [t.memRead_eq _ w (by rw [haddr, hcfg]; omega), haddr, ht,
    Memory.readBytes_writeBytes_slice hwf _ v w.bytes_le hk]

/-- Settles O30: each view is a slice of the written word; the fetch is a word read at the pc. -/
theorem mixedWidthAccessesSeeTheBytes : Obligations.MixedWidthAccessesSeeTheBytes := by
  intro s t addr v hsize hwf h
  have hview {k w} := State.memRead_of_memWrite hsize hwf h (k := k) (w := w)
  have hword : t.memRead addr .word = some v := by
    have h0 := hview (k := 0) (w := .word) (Nat.le_refl 4)
    rw [BitVec.add_zero] at h0
    exact h0.trans (congrArg some (by simp [Width.bytes]))
  exact ⟨fun _ hk => hview (w := .byte) hk, fun _ hk => hview (w := .half) (Nat.succ_le_succ hk), hword, hword⟩

/-! ### A load after a store (R72) -/

/-- A load of the width and address of the store before it completes with the stored low bytes, sign-extended. -/
theorem execLoad_of_execStore {s t : State} {w : Width} {rs1 rs2 rb : Reg} (rd : Reg) {imm5 : BitVec 5} {imm7 : BitVec 7}
    {imm : Word} (hwf : s.mem.wf) (haddr : s.loadAddress rb imm = s.storeAddress rs1 imm5 imm7)
    (hb : (s.storeAddress rs1 imm5 imm7).toNat + w.bytes ≤ s.cfg.memSize)
    (h : execStore w rs1 rs2 imm5 imm7 s = .next t) :
    ∃ u, execLoad w rd rb imm t = .next u
      ∧ u.readReg rd = written s rd (BitVec.ofInt 32 ((s.readReg rs2).extractLsb' 0 (8 * w.bytes)).toInt) := by
  rw [execStore_inBounds hb] at h
  have ht := (Host.Outcome.next.inj h).symm
  have hcfg : t.cfg = s.cfg := ht ▸ rfl
  have hload : t.loadAddress rb imm = s.storeAddress rs1 imm5 imm7 :=
    (congrArg (· + imm) (State.readReg_congr rb hcfg (ht ▸ rfl))).trans haddr
  have hread : t.mem.readBytes (s.storeAddress rs1 imm5 imm7).toNat w.bytes
      = ((s.readReg rs2).extractLsb' 0 (8 * w.bytes)).setWidth 32 := by
    rw [ht]
    exact Memory.readBytes_writeBytes_slice hwf _ _ (k := 0) w.bytes_le (by omega)
  have hpos := w.bytes_pos
  have hle := w.bytes_le
  refine ⟨_, execLoad_inBounds (by rw [hload, hcfg]; exact hb), ?_⟩
  rw [State.readReg_writeBack_same, hload, hread, hcfg, ← sext_eq_ofInt (by omega) (by omega)]
  rfl

/-- Settles O31: one argument for the three widths; the 32-bit value needs no extension. -/
theorem loadAfterStoreGivesTheValue : Obligations.LoadAfterStoreGivesTheValue := by
  intro s t rs1 rs2 rd rb imm5 imm7 imm hwf haddr
  refine ⟨execLoad_of_execStore (w := .byte) rd hwf haddr, execLoad_of_execStore (w := .half) rd hwf haddr,
    fun hb h => ?_⟩
  have hw := execLoad_of_execStore (w := .word) rd hwf haddr hb h
  have hv : BitVec.ofInt 32 ((s.readReg rs2).extractLsb' 0 32).toInt = s.readReg rs2 := by
    rw [BitVec.ofInt_toInt, BitVec.extractLsb'_eq_self]
  exact hv ▸ hw

/-! ### A fetch after a store (R75, R303) -/

/-- The word at an address is the four-byte read there. -/
theorem wordAt_eq_readBytes (s : State) (a : Nat) : wordAt s a = s.mem.readBytes a 4 :=
  (Memory.readBytes_word s.mem a).symm

/-- Settles O32: the store moves the pc to the word it wrote, so the next fetch reads it back. -/
theorem selfModifyingCodeTakesEffectAtOnce : Obligations.SelfModifyingCodeTakesEffectAtOnce := by
  intro s rs1 rs2 imm5 imm7 i hwf hrun hpc hd hea hb hi
  have hstep : step s = .next (State.advancePc
      { s with mem := s.mem.writeBytes (s.pc + 4).toNat (s.readReg rs2) 4 }) := by
    rw [step_exec hrun hpc hd, ← hea]
    exact execStore_inBounds (w := .word) (by rw [hea]; exact hb)
  refine ⟨_, hstep, rfl, step_exec hrun hb ?_⟩
  rw [wordAt_eq_readBytes]
  exact (congrArg (decode s.cfg) (Memory.readBytes_writeBytes_word hwf ..)).trans hi

/-! ### Only stores write (R67) -/

/-- No instruction changes the parameters (R7). -/
theorem Change.cfg_eq {i : Instr} {s t : State} (hc : Change i s t) : t.cfg = s.cfg := by
  cases hc with
  | register _ _ _ _ _ ht | jump _ _ _ ht | store _ _ _ _ _ _ ht | event _ _ _ _ _ ht | exit _ _ ht
  | outOfBounds _ _ _ _ ht | unknownService _ _ ht => rw [ht]; rfl

/-- An instruction leaves the whole memory as it was, or is a store in bounds that writes its bytes. -/
theorem Change.mem_cases {i : Instr} {s t : State} (hc : Change i s t) :
    t.mem = s.mem
      ∨ ∃ (ea v : Word) (w : Width), storeTarget s i = some (ea, w)
          ∧ t.mem = s.mem.writeBytes ea.toNat v w.bytes := by
  cases hc with
  | store ea w v hm _ _ ht => exact .inr ⟨ea, v, w, hm, ht ▸ rfl⟩
  | register _ _ _ _ _ ht | jump _ _ _ ht | event _ _ _ _ _ ht | exit _ _ ht | outOfBounds _ _ _ _ ht
  | unknownService _ _ ht => exact .inl (ht ▸ rfl)

/-- Settles O45: by the two ways an instruction can leave memory. -/
theorem onlyStoresWriteMemory : Obligations.OnlyStoresWriteMemory := by
  intro i s t hwf h
  have hc := exec_change h
  refine ⟨hc.cfg_eq, ?_⟩
  obtain hm | ⟨ea, v, w, htarget, hm⟩ := hc.mem_cases
  · exact ⟨fun _ a => congrArg (Memory.read · a) hm, fun _ _ _ a _ => congrArg (Memory.read · a) hm⟩
  · refine ⟨fun hnone => (nomatch htarget.symm.trans hnone), fun ea' w' h' a ha => ?_⟩
    cases htarget.symm.trans h'
    exact (congrArg (Memory.read · a) hm).trans (Memory.read_writeBytes_outside hwf v ha)

end Sys2Proof.Machine
end

section
/-!
PROOF. Encoding and decoding are inverse: each selection function of the decoder against the encoder, one format at a time
(O18, O19).
-/

namespace Sys2Proof

variable {cfg : Config} {raw : Word} {i : Instr} {rd rs1 rs2 : Reg} {f3 : BitVec 3} {f7 imm7 : BitVec 7} {imm5 : BitVec 5}
  {imm : Word}

/-! ### A selection answers the instruction of its fields: the word it encodes to (R102 to R107) -/

theorem encode_of_selectArith (h : selectArith rd rs1 rs2 f3 f7 = some i) : encode cfg i = rWord f7 rs2 rs1 f3 rd 0x33 := by
  unfold selectArith at h
  split at h <;> cases h <;> rfl

theorem encode_of_selectCustom (h : selectCustom cfg rd rs1 rs2 f3 f7 = some i) :
    encode cfg i = rWord f7 rs2 rs1 f3 rd 0x2b := by
  unfold selectCustom at h
  split_ifs at h with hmac hacc hgep <;> cases h
  · rw [encode, ← hmac]
  · rw [encode, ← hacc]
  · rw [encode, ← hgep]

/-- The 12-bit field is `funct7` and the shift amount together (R103, R114, R180). -/
theorem immHigh_append_immLow (imm : Word) : immHigh imm ++ immLow imm = imm12Of imm :=
  BitVec.extractLsb'_append_extractLsb'_eq_extractLsb' rfl

theorem encode_of_selectShiftRight (h : selectShiftRight rd rs1 imm = some i) :
    encode cfg i = rWord (immHigh imm) (immLow imm) rs1 5 rd 0x13 := by
  unfold selectShiftRight at h
  split at h <;> cases h
  case h_1 hhigh => rw [hhigh]; rfl
  case h_2 hhigh => rw [hhigh]; rfl

theorem encode_of_selectArithImm (h : selectArithImm rd rs1 f3 imm = some i) :
    encode cfg i = iWord (imm12Of imm) rs1 f3 rd 0x13 := by
  unfold selectArithImm at h
  split at h
  case h_5 => rw [encode_of_selectShiftRight h, ← immHigh_append_immLow]; rfl
  all_goals cases h <;> rfl

theorem encode_of_selectLoad (h : selectLoad rd rs1 f3 imm = some i) :
    encode cfg i = iWord (imm12Of imm) rs1 f3 rd 0x03 := by
  unfold selectLoad at h
  split at h <;> cases h <;> rfl

theorem encode_of_selectStore (h : selectStore rs1 rs2 f3 imm5 imm7 = some i) :
    encode cfg i = sWord imm7 rs2 rs1 f3 imm5 0x23 := by
  unfold selectStore at h
  split at h <;> cases h <;> rfl

theorem encode_of_selectBranch (h : selectBranch rs1 rs2 f3 imm5 imm7 = some i) :
    encode cfg i = sWord imm7 rs2 rs1 f3 imm5 0x63 := by
  unfold selectBranch at h
  split at h <;> cases h <;> rfl

/-! ### A word with given fields decodes to what the selection answers -/

theorem decode_of_selectArith (h : selectArith rd rs1 rs2 f3 f7 = some i) :
    decode cfg (rWord f7 rs2 rs1 f3 rd 0x33) = .ok i := by
  rw [decode_arith (opcodeField_rWord ..)]
  simp [h]

theorem decode_of_selectCustom (h : selectCustom cfg rd rs1 rs2 f3 f7 = some i) :
    decode cfg (rWord f7 rs2 rs1 f3 rd 0x2b) = .ok i := by
  rw [decode_custom (opcodeField_rWord ..)]
  simp [h]

theorem decode_of_selectArithImm (hfits : Imm12Fits imm) (h : selectArithImm rd rs1 f3 imm = some i) :
    decode cfg (iWord (imm12Of imm) rs1 f3 rd 0x13) = .ok i := by
  rw [decode_arithImm (opcodeField_iWord ..), immI_iWord _ _ _ _ hfits]
  simp [h]

/-- The right shifts have the R format: `funct7` picks one, and the shift amount stands in the place of `rs2` (R114). -/
theorem decode_shiftRight (f7 : BitVec 7) (shamt : BitVec 5) (rs1 rd : Reg) :
    decode cfg (rWord f7 shamt rs1 5 rd 0x13) =
      (selectShiftRight rd rs1 (immI (rWord f7 shamt rs1 5 rd 0x13))).elim
        (.error (.invalidInstruction (rWord f7 shamt rs1 5 rd 0x13))) .ok := by
  rw [decode_arithImm (opcodeField_rWord ..), rdField_rWord, rs1Field_rWord, funct3Field_rWord]
  rfl

theorem decode_of_selectLoad (hfits : Imm12Fits imm) (h : selectLoad rd rs1 f3 imm = some i) :
    decode cfg (iWord (imm12Of imm) rs1 f3 rd 0x03) = .ok i := by
  rw [decode_load (opcodeField_iWord ..), immI_iWord _ _ _ _ hfits]
  simp [h]

theorem decode_of_selectStore (h : selectStore rs1 rs2 f3 imm5 imm7 = some i) :
    decode cfg (sWord imm7 rs2 rs1 f3 imm5 0x23) = .ok i := by
  rw [sWord_eq_rWord, decode_store (opcodeField_rWord ..)]
  simp [h]

theorem decode_of_selectBranch (h : selectBranch rs1 rs2 f3 imm5 imm7 = some i) :
    decode cfg (sWord imm7 rs2 rs1 f3 imm5 0x63) = .ok i := by
  rw [sWord_eq_rWord, decode_branch (opcodeField_rWord ..)]
  simp [h]

/-- A custom instruction's own selector picks it, where the selectors differ (R119, D16). -/
theorem selectCustom_selMac : selectCustom cfg rd rs1 rs2 cfg.selMac.funct3 cfg.selMac.funct7 = some (.mac rd rs1 rs2) :=
  if_pos rfl

theorem selectCustom_selAcc (h : cfg.SelectorsDiffer) :
    selectCustom cfg rd rs1 rs2 cfg.selAcc.funct3 cfg.selAcc.funct7 = some (.acc rd rs1 rs2) := by
  obtain ⟨hma, -, -⟩ := h
  rw [selectCustom, if_neg hma.symm, if_pos rfl]

theorem selectCustom_selGep (h : cfg.SelectorsDiffer) :
    selectCustom cfg rd rs1 rs2 cfg.selGep.funct3 cfg.selGep.funct7 = some (.gep rd rs1 rs2) := by
  obtain ⟨-, hmg, hag⟩ := h
  rw [selectCustom, if_neg hmg.symm, if_neg hag.symm, if_pos rfl]

theorem decode_encode (h : i.WellFormed cfg) : decode cfg (encode cfg i) = .ok i := by
  cases i with
  | add rd rs1 rs2 | sub rd rs1 rs2 | mul rd rs1 rs2 | sll rd rs1 rs2 | mulh rd rs1 rs2 | slt rd rs1 rs2
  | xor rd rs1 rs2 | div rd rs1 rs2 | srl rd rs1 rs2 | sra rd rs1 rs2 | or rd rs1 rs2 | rem rd rs1 rs2
  | and rd rs1 rs2 => exact decode_of_selectArith rfl
  | addi rd rs1 imm | slli rd rs1 imm | slti rd rs1 imm | xori rd rs1 imm | ori rd rs1 imm
  | andi rd rs1 imm => exact decode_of_selectArithImm h rfl
  | srli rd rs1 shamt | srai rd rs1 shamt =>
    rw [encode, decode_shiftRight, selectShiftRight, immHigh_immI, immLow_immI, funct7Field_rWord, rs2Field_rWord]
    rfl
  | lb rd rs1 imm | lh rd rs1 imm | lw rd rs1 imm => exact decode_of_selectLoad h rfl
  | sb rs1 rs2 imm5 imm7 | sh rs1 rs2 imm5 imm7 | sw rs1 rs2 imm5 imm7 => exact decode_of_selectStore rfl
  | beq rs1 rs2 imm5 imm7 | bne rs1 rs2 imm5 imm7 => exact decode_of_selectBranch rfl
  | jal rd imm20 => rw [encode, decode_jal (opcodeField_uWord ..), rdField_uWord, imm20Field_uWord]
  | lui rd imm20 => rw [encode, decode_lui (opcodeField_uWord ..), rdField_uWord, imm20Field_uWord]
  | mac rd rs1 rs2 => exact decode_of_selectCustom selectCustom_selMac
  | acc rd rs1 rs2 => exact decode_of_selectCustom (selectCustom_selAcc h)
  | gep rd rs1 rs2 => exact decode_of_selectCustom (selectCustom_selGep h)
  | ecall rd rs1 funct3 imm12 =>
    rw [encode, decode_ecall (opcodeField_iWord ..), rdField_iWord, rs1Field_iWord, funct3Field_iWord, imm12Field_iWord]

end Sys2Proof

namespace Sys2Proof.Machine

/-- Settles O18: case by case, by the format of the instruction's word. -/
theorem decodeOfEncodeIsIdentity : Obligations.DecodeOfEncodeIsIdentity :=
  fun _ _ h => decode_encode h

end Sys2Proof.Machine

end

section
/-!
PROOF. Which words the decoder answers and how it rejects the others, opcode by opcode (O19, O22, O23), and the record of
each opcode (O54).
-/

namespace Sys2Proof.Machine

variable {cfg : Config} {raw : Word} {i : Instr} {rd rs1 rs2 : Reg} {f3 : BitVec 3} {f7 imm7 : BitVec 7} {imm5 : BitVec 5}
  {imm : Word}

/-! ### The opcode (R108, R120) -/

theorem decodeRecord_eq_none_iff : decodeRecord raw = none ↔ opcodeField raw ∉ knownOpcodes := by
  unfold decodeRecord
  split <;> simp_all [knownOpcodes]

/-- Settles O22: the decoder has no record of a word exactly for the opcodes outside its table. -/
theorem unknownOpcodesAreInvalidOpcode : Obligations.UnknownOpcodesAreInvalidOpcode :=
  fun _ _ _ => decode_invalidOpcode_iff.trans (and_congr_right' decodeRecord_eq_none_iff)

theorem decode_of_unknown_opcode (h : opcodeField raw ∉ knownOpcodes) : decode cfg raw = .error (.invalidOpcode raw) :=
  decode_invalidOpcode_iff.mpr ⟨rfl, decodeRecord_eq_none_iff.mpr h⟩

/-- Any other answer than the rejection of the opcode means that the opcode is known. -/
theorem opcode_known_of_decode {answer : Except Rejection Instr} (h : decode cfg raw = answer)
    (hne : answer ≠ .error (.invalidOpcode raw)) : opcodeField raw ∈ knownOpcodes := by
  by_contra hunknown
  exact hne (h.symm.trans (decode_of_unknown_opcode hunknown))

theorem mem_knownOpcodes_iff {op : BitVec 7} : op ∈ knownOpcodes ↔ op = 0x33 ∨ op = 0x13 ∨ op = 0x03 ∨ op = 0x23 ∨ op = 0x63
    ∨ op = 0x37 ∨ op = 0x6F ∨ op = 0x73 ∨ op = 0x2b := by
  simp [knownOpcodes]

/-! ### The answer of a selection as the answer of the decoder -/

theorem elim_eq_ok_iff {o : Option Instr} {why : Rejection} :
    o.elim (.error why) .ok = (.ok i : Except Rejection Instr) ↔ o = some i := by
  cases o <;> simp

theorem elim_eq_error_iff {o : Option Instr} {why why' : Rejection} :
    o.elim (.error why) .ok = (.error why' : Except Rejection Instr) ↔ why' = why ∧ o = none := by
  cases o <;> simp [eq_comm]

/-- Settles O19: the selection of each opcode against the format of its words. -/
theorem encodeOfDecodeIsIdentity : Obligations.EncodeOfDecodeIsIdentity := by
  intro cfg raw i h
  rcases mem_knownOpcodes_iff.mp (opcode_known_of_decode h nofun) with hop | hop | hop | hop | hop | hop | hop | hop | hop
  · rw [decode_arith hop, elim_eq_ok_iff] at h
    rw [encode_of_selectArith h, ← hop, rWord_fields]
  · rw [decode_arithImm hop, elim_eq_ok_iff] at h
    rw [encode_of_selectArithImm h, ← hop, imm12Of_immI, iWord_fields]
  · rw [decode_load hop, elim_eq_ok_iff] at h
    rw [encode_of_selectLoad h, ← hop, imm12Of_immI, iWord_fields]
  · rw [decode_store hop, elim_eq_ok_iff] at h
    rw [encode_of_selectStore h, ← hop]
    exact rWord_fields raw
  · rw [decode_branch hop, elim_eq_ok_iff] at h
    rw [encode_of_selectBranch h, ← hop]
    exact rWord_fields raw
  · cases (decode_lui hop).symm.trans h
    rw [encode, ← hop, uWord_fields]
  · cases (decode_jal hop).symm.trans h
    rw [encode, ← hop, uWord_fields]
  · cases (decode_ecall hop).symm.trans h
    rw [encode, ← hop, iWord_fields]
  · rw [decode_custom hop, elim_eq_ok_iff] at h
    rw [encode_of_selectCustom h, ← hop, rWord_fields]

/-! ### The selector fields no row has (R121) -/

theorem two_le_funct3 {f3 : BitVec 3} (h0 : f3 ≠ 0) (h1 : f3 ≠ 1) : 2 ≤ f3.toNat := by
  bv_omega

theorem three_le_funct3 {f3 : BitVec 3} (h0 : f3 ≠ 0) (h1 : f3 ≠ 1) (h2 : f3 ≠ 2) : 3 ≤ f3.toNat := by
  bv_omega

theorem selectArith_eq_none_iff : selectArith rd rs1 rs2 f3 f7 = none ↔ (f3, f7) ∉ arithPairs := by
  unfold selectArith
  split <;> simp_all [arithPairs]

theorem selectCustom_eq_none_iff : selectCustom cfg rd rs1 rs2 f3 f7 = none ↔
    ⟨f3, f7⟩ ≠ cfg.selMac ∧ ⟨f3, f7⟩ ≠ cfg.selAcc ∧ ⟨f3, f7⟩ ≠ cfg.selGep := by
  unfold selectCustom
  split_ifs <;> simp_all

theorem selectShiftRight_eq_none_iff : selectShiftRight rd rs1 imm = none ↔ immHigh imm ≠ 0x00 ∧ immHigh imm ≠ 0x20 := by
  unfold selectShiftRight
  split <;> simp_all

theorem funct3_eq_three {f3 : BitVec 3} (h0 : f3 ≠ 0) (h1 : f3 ≠ 1) (h2 : f3 ≠ 2) (h4 : f3 ≠ 4) (h5 : f3 ≠ 5) (h6 : f3 ≠ 6)
    (h7 : f3 ≠ 7) : f3 = 3 := by
  bv_omega

/-- Of the eight values of funct3, 3 has no row, and 5 leaves the choice to the bits above the shift amount. -/
theorem selectArithImm_eq_none_iff : selectArithImm rd rs1 f3 imm = none ↔
    f3 = 3 ∨ (f3 = 5 ∧ immHigh imm ≠ 0x00 ∧ immHigh imm ≠ 0x20) := by
  unfold selectArithImm
  split
  case h_5 => simp [selectShiftRight_eq_none_iff]
  case h_8 h0 h1 h2 h4 h5 h6 h7 => exact iff_of_true rfl (.inl (funct3_eq_three h0 h1 h2 h4 h5 h6 h7))
  all_goals simp

theorem selectLoad_eq_none_iff : selectLoad rd rs1 f3 imm = none ↔ 3 ≤ f3.toNat := by
  unfold selectLoad
  split
  case h_4 h0 h1 h2 => exact iff_of_true rfl (three_le_funct3 h0 h1 h2)
  all_goals simp

theorem selectStore_eq_none_iff : selectStore rs1 rs2 f3 imm5 imm7 = none ↔ 3 ≤ f3.toNat := by
  unfold selectStore
  split
  case h_4 h0 h1 h2 => exact iff_of_true rfl (three_le_funct3 h0 h1 h2)
  all_goals simp

theorem selectBranch_eq_none_iff : selectBranch rs1 rs2 f3 imm5 imm7 = none ↔ 2 ≤ f3.toNat := by
  unfold selectBranch
  split
  case h_3 h0 h1 => exact iff_of_true rfl (two_le_funct3 h0 h1)
  all_goals simp

/-- The list of R121 in the decoder's fields. -/
theorem illegalFunction_iff : IllegalFunction cfg raw ↔
    (opcodeField raw = 0x33 ∧ (funct3Field raw, funct7Field raw) ∉ arithPairs)
      ∨ (opcodeField raw = 0x13 ∧ (funct3Field raw = 3
          ∨ (funct3Field raw = 5 ∧ funct7Field raw ≠ 0x00 ∧ funct7Field raw ≠ 0x20)))
      ∨ (opcodeField raw = 0x03 ∧ 3 ≤ (funct3Field raw).toNat)
      ∨ (opcodeField raw = 0x23 ∧ 3 ≤ (funct3Field raw).toNat)
      ∨ (opcodeField raw = 0x63 ∧ 2 ≤ (funct3Field raw).toNat)
      ∨ (opcodeField raw = 0x2b ∧ ⟨funct3Field raw, funct7Field raw⟩ ≠ cfg.selMac
          ∧ ⟨funct3Field raw, funct7Field raw⟩ ≠ cfg.selAcc ∧ ⟨funct3Field raw, funct7Field raw⟩ ≠ cfg.selGep) :=
  Iff.rfl

theorem opcode_known_of_illegalFunction (h : IllegalFunction cfg raw) : opcodeField raw ∈ knownOpcodes := by
  rw [mem_knownOpcodes_iff]
  rw [illegalFunction_iff] at h
  tauto

/-- For a known opcode, the selection of that opcode fails exactly on its clause of R121's list. -/
theorem decode_invalidInstruction_iff_illegalFunction (hknown : opcodeField raw ∈ knownOpcodes) (why : Word) :
    decode cfg raw = .error (.invalidInstruction why) ↔ why = raw ∧ IllegalFunction cfg raw := by
  rw [illegalFunction_iff]
  rcases mem_knownOpcodes_iff.mp hknown with hop | hop | hop | hop | hop | hop | hop | hop | hop
  · rw [decode_arith hop, elim_eq_error_iff, selectArith_eq_none_iff]; simp [hop]
  · rw [decode_arithImm hop, elim_eq_error_iff, selectArithImm_eq_none_iff, immHigh_immI]; simp [hop]
  · rw [decode_load hop, elim_eq_error_iff, selectLoad_eq_none_iff]; simp [hop]
  · rw [decode_store hop, elim_eq_error_iff, selectStore_eq_none_iff]; simp [hop]
  · rw [decode_branch hop, elim_eq_error_iff, selectBranch_eq_none_iff]; simp [hop]
  · rw [decode_lui hop]; simp [hop]
  · rw [decode_jal hop]; simp [hop]
  · rw [decode_ecall hop]; simp [hop]
  · rw [decode_custom hop, elim_eq_error_iff, selectCustom_eq_none_iff]; simp [hop]

/-- Settles O23: no word of unknown opcode is on either side, and the others go by their selection. -/
theorem illegalFunctionCodesAreInvalidInstruction : Obligations.IllegalFunctionCodesAreInvalidInstruction := by
  intro cfg raw why
  constructor
  · intro h
    exact (decode_invalidInstruction_iff_illegalFunction (opcode_known_of_decode h nofun) why).mp h
  · intro h
    exact (decode_invalidInstruction_iff_illegalFunction (opcode_known_of_illegalFunction h.2) why).mpr h

/-! ### The record (R109) -/

/-- Settles O54: the record of each opcode, with the immediate of `immI_eq`. -/
theorem recordsHoldExtendedImmediatesOrRawFragments : Obligations.RecordsHoldExtendedImmediatesOrRawFragments := by
  intro raw
  refine ⟨?_, fun hop => ?_, fun hop => ?_, fun hop => ?_, fun hop => ?_, fun hop => ?_, ?_⟩
  · have himm : BitVec.ofInt 32 (raw.extractLsb' 20 12).toInt = immI raw := (immI_eq raw).symm
    rintro (hop | hop) <;> rw [himm, decodeRecord, opcodeField, hop] <;> rfl
  · rw [decodeRecord, opcodeField, hop]; rfl
  · rw [decodeRecord, opcodeField, hop]; rfl
  · rw [decodeRecord, opcodeField, hop]; rfl
  · rw [decodeRecord, opcodeField, hop]; rfl
  · rw [decodeRecord, opcodeField, hop]; rfl
  · rintro (hop | hop) <;> rw [decodeRecord, opcodeField, hop] <;> rfl

end Sys2Proof.Machine

end

section
/-!
PROOF. The opcode table: a word in a row is the encoding of the row's instruction with the operands the word names
(O20, O21).
-/

namespace Sys2Proof

/-- The instruction with its operands taken from a word, each from the field of its format (R102 to R107, R109). -/
def Instr.withOperandsOf (raw : Word) : Instr → Instr
  | .add _ _ _ => .add (rdField raw) (rs1Field raw) (rs2Field raw)
  | .sub _ _ _ => .sub (rdField raw) (rs1Field raw) (rs2Field raw)
  | .mul _ _ _ => .mul (rdField raw) (rs1Field raw) (rs2Field raw)
  | .sll _ _ _ => .sll (rdField raw) (rs1Field raw) (rs2Field raw)
  | .mulh _ _ _ => .mulh (rdField raw) (rs1Field raw) (rs2Field raw)
  | .slt _ _ _ => .slt (rdField raw) (rs1Field raw) (rs2Field raw)
  | .xor _ _ _ => .xor (rdField raw) (rs1Field raw) (rs2Field raw)
  | .div _ _ _ => .div (rdField raw) (rs1Field raw) (rs2Field raw)
  | .srl _ _ _ => .srl (rdField raw) (rs1Field raw) (rs2Field raw)
  | .sra _ _ _ => .sra (rdField raw) (rs1Field raw) (rs2Field raw)
  | .or _ _ _ => .or (rdField raw) (rs1Field raw) (rs2Field raw)
  | .rem _ _ _ => .rem (rdField raw) (rs1Field raw) (rs2Field raw)
  | .and _ _ _ => .and (rdField raw) (rs1Field raw) (rs2Field raw)
  | .addi _ _ _ => .addi (rdField raw) (rs1Field raw) (immI raw)
  | .slli _ _ _ => .slli (rdField raw) (rs1Field raw) (immI raw)
  | .slti _ _ _ => .slti (rdField raw) (rs1Field raw) (immI raw)
  | .xori _ _ _ => .xori (rdField raw) (rs1Field raw) (immI raw)
  | .srli _ _ _ => .srli (rdField raw) (rs1Field raw) (rs2Field raw)
  | .srai _ _ _ => .srai (rdField raw) (rs1Field raw) (rs2Field raw)
  | .ori _ _ _ => .ori (rdField raw) (rs1Field raw) (immI raw)
  | .andi _ _ _ => .andi (rdField raw) (rs1Field raw) (immI raw)
  | .lb _ _ _ => .lb (rdField raw) (rs1Field raw) (immI raw)
  | .lh _ _ _ => .lh (rdField raw) (rs1Field raw) (immI raw)
  | .lw _ _ _ => .lw (rdField raw) (rs1Field raw) (immI raw)
  | .sb _ _ _ _ => .sb (rs1Field raw) (rs2Field raw) (imm5Field raw) (imm7Field raw)
  | .sh _ _ _ _ => .sh (rs1Field raw) (rs2Field raw) (imm5Field raw) (imm7Field raw)
  | .sw _ _ _ _ => .sw (rs1Field raw) (rs2Field raw) (imm5Field raw) (imm7Field raw)
  | .beq _ _ _ _ => .beq (rs1Field raw) (rs2Field raw) (imm5Field raw) (imm7Field raw)
  | .bne _ _ _ _ => .bne (rs1Field raw) (rs2Field raw) (imm5Field raw) (imm7Field raw)
  | .jal _ _ => .jal (rdField raw) (imm20Field raw)
  | .lui _ _ => .lui (rdField raw) (imm20Field raw)
  | .mac _ _ _ => .mac (rdField raw) (rs1Field raw) (rs2Field raw)
  | .acc _ _ _ => .acc (rdField raw) (rs1Field raw) (rs2Field raw)
  | .gep _ _ _ => .gep (rdField raw) (rs1Field raw) (rs2Field raw)
  | .ecall _ _ _ _ => .ecall (rdField raw) (rs1Field raw) (funct3Field raw) (imm12Field raw)

/-- A row belongs to the instruction whatever its operands. -/
theorem Instr.row_withOperandsOf (cfg : Config) (raw : Word) (i : Instr) : (i.withOperandsOf raw).row cfg = i.row cfg := by
  cases i <;> rfl

/-- The decoder's immediate is one 12 bits can represent (R109, R110). -/
theorem imm12Fits_immI (raw : Word) : Imm12Fits (immI raw) := by
  rw [Imm12Fits, immI, Machine.toInt_sext (by decide) (by decide)]
  exact ⟨BitVec.le_toInt _, Int.le_of_lt_add_one BitVec.toInt_lt⟩

/-- Operands from a word are well formed: only the custom selectors can fail. -/
theorem Instr.wellFormed_withOperandsOf {cfg : Config} (hsel : cfg.SelectorsDiffer) (raw : Word) (i : Instr) :
    (i.withOperandsOf raw).WellFormed cfg := by
  cases i with
  | mac | acc | gep => exact hsel
  | addi | slli | slti | xori | ori | andi | lb | lh | lw => exact imm12Fits_immI raw
  | _ => trivial

/-! ### A word in a row, rebuilt from the row's fixed fields and its operands (R112) -/

section
variable {raw : Word} {f7 : BitVec 7} {f3 : BitVec 3} {op : BitVec 7}

theorem rWord_of_mask_rType (h : raw &&& 0xFE00707F = rWord f7 0 0 f3 0 op) :
    rWord f7 (rs2Field raw) (rs1Field raw) f3 (rdField raw) op = raw := by
  obtain ⟨rfl, rfl, rfl⟩ := fields_of_mask_rType h
  exact rWord_fields raw

theorem iWord_of_mask_funct3 (h : raw &&& 0x0000707F = rWord 0 0 0 f3 0 op) :
    iWord (imm12Of (immI raw)) (rs1Field raw) f3 (rdField raw) op = raw := by
  obtain ⟨rfl, rfl⟩ := fields_of_mask_funct3 h
  rw [imm12Of_immI, iWord_fields]

theorem sWord_of_mask_funct3 (h : raw &&& 0x0000707F = rWord 0 0 0 f3 0 op) :
    sWord (imm7Field raw) (rs2Field raw) (rs1Field raw) f3 (imm5Field raw) op = raw := by
  obtain ⟨rfl, rfl⟩ := fields_of_mask_funct3 h
  exact rWord_fields raw

theorem uWord_of_mask_opcode (h : raw &&& 0x0000007F = rWord 0 0 0 0 0 op) : uWord (imm20Field raw) (rdField raw) op = raw := by
  obtain rfl := fields_of_mask_opcode h
  exact uWord_fields raw

end

/-- A word in an instruction's row is the row's encoding of the word's own operands. -/
theorem encode_withOperandsOf {cfg : Config} {raw : Word} {i : Instr} (h : (i.row cfg).holds raw) :
    encode cfg (i.withOperandsOf raw) = raw := by
  cases i with
  | add | sub | mul | sll | mulh | slt | xor | div | srl | sra | or | rem | and | srli | srai | mac | acc
  | gep => exact rWord_of_mask_rType h
  | addi | slli | slti | xori | ori | andi | lb | lh | lw => exact iWord_of_mask_funct3 h
  | sb | sh | sw | beq | bne => exact sWord_of_mask_funct3 h
  | jal | lui => exact uWord_of_mask_opcode h
  | ecall =>
    have hop := fields_of_mask_opcode (op := 0x73) h
    rw [Instr.withOperandsOf, encode, ← hop, iWord_fields]

/-- A word in an instruction's row decodes to that instruction with the word's operands (R112). -/
theorem decode_of_row_holds {cfg : Config} (hsel : cfg.SelectorsDiffer) {raw : Word} {i : Instr}
    (h : (i.row cfg).holds raw) : decode cfg raw = .ok (i.withOperandsOf raw) := by
  have hdecode := decode_encode (i.wellFormed_withOperandsOf hsel raw)
  rwa [encode_withOperandsOf h] at hdecode

/-- The encoding of an instruction is in the instruction's row: the family `MatchesRow`. -/
theorem row_holds_encode (cfg : Config) : ∀ i : Instr, (i.row cfg).holds (encode cfg i)
  | .add .. => Laws.MatchesRow.add _ _ _ cfg
  | .sub .. => Laws.MatchesRow.sub _ _ _ cfg
  | .mul .. => Laws.MatchesRow.mul _ _ _ cfg
  | .sll .. => Laws.MatchesRow.sll _ _ _ cfg
  | .mulh .. => Laws.MatchesRow.mulh _ _ _ cfg
  | .slt .. => Laws.MatchesRow.slt _ _ _ cfg
  | .xor .. => Laws.MatchesRow.xor _ _ _ cfg
  | .div .. => Laws.MatchesRow.div _ _ _ cfg
  | .srl .. => Laws.MatchesRow.srl _ _ _ cfg
  | .sra .. => Laws.MatchesRow.sra _ _ _ cfg
  | .or .. => Laws.MatchesRow.or _ _ _ cfg
  | .rem .. => Laws.MatchesRow.rem _ _ _ cfg
  | .and .. => Laws.MatchesRow.and _ _ _ cfg
  | .addi .. => Laws.MatchesRow.addi _ _ _ cfg
  | .slli .. => Laws.MatchesRow.slli _ _ _ cfg
  | .slti .. => Laws.MatchesRow.slti _ _ _ cfg
  | .xori .. => Laws.MatchesRow.xori _ _ _ cfg
  | .srli .. => Laws.MatchesRow.srli _ _ _ cfg
  | .srai .. => Laws.MatchesRow.srai _ _ _ cfg
  | .ori .. => Laws.MatchesRow.ori _ _ _ cfg
  | .andi .. => Laws.MatchesRow.andi _ _ _ cfg
  | .lb .. => Laws.MatchesRow.lb _ _ _ cfg
  | .lh .. => Laws.MatchesRow.lh _ _ _ cfg
  | .lw .. => Laws.MatchesRow.lw _ _ _ cfg
  | .sb .. => Laws.MatchesRow.sb _ _ _ _ cfg
  | .sh .. => Laws.MatchesRow.sh _ _ _ _ cfg
  | .sw .. => Laws.MatchesRow.sw _ _ _ _ cfg
  | .beq .. => Laws.MatchesRow.beq _ _ _ _ cfg
  | .bne .. => Laws.MatchesRow.bne _ _ _ _ cfg
  | .jal .. => Laws.MatchesRow.jal _ _ cfg
  | .lui .. => Laws.MatchesRow.lui _ _ cfg
  | .mac .. => Laws.MatchesRow.mac _ _ _ cfg
  | .acc .. => Laws.MatchesRow.acc _ _ _ cfg
  | .gep .. => Laws.MatchesRow.gep _ _ _ cfg
  | .ecall .. => Laws.MatchesRow.ecall _ _ _ _ cfg

end Sys2Proof

namespace Sys2Proof.Machine

/-- Settles O20: a word in the row decodes with its own operands, and a decoded word is an encoding, which is in its row. -/
theorem rowMatchDecidesInstruction : Obligations.RowMatchDecidesInstruction := by
  intro cfg raw i hsel
  constructor
  · intro h
    exact ⟨_, decode_of_row_holds hsel h, i.row_withOperandsOf cfg raw⟩
  · rintro ⟨j, hj, hrow⟩
    rw [← hrow, ← encodeOfDecodeIsIdentity cfg raw j hj]
    exact row_holds_encode cfg j

/-- Settles O21: decoding gives one instruction, so the two rows are that instruction's. -/
theorem rowsNeverOverlap : Obligations.RowsNeverOverlap := by
  intro cfg raw i j hsel hi hj
  obtain ⟨i', hdecode, hrow⟩ := (rowMatchDecidesInstruction cfg raw i hsel).mp hi
  obtain ⟨j', hdecode', hrow'⟩ := (rowMatchDecidesInstruction cfg raw j hsel).mp hj
  cases hdecode.symm.trans hdecode'
  exact hrow.symm.trans hrow'

end Sys2Proof.Machine

end

section
/-!
PROOF. What some encodings do when they run: `slli` and `ecall` with ignored bits set, and the pseudo-instructions that need
no zero register (O16, O17, O53).
-/

namespace Sys2Proof.Machine

theorem decode_slli {cfg : Config} {raw : Word} (hop : opcodeField raw = 0x13) (hf3 : funct3Field raw = 1) :
    decode cfg raw = .ok (.slli (rdField raw) (rs1Field raw) (immI raw)) := by
  rw [decode_arithImm hop, hf3]
  rfl

theorem exec_slli (rd rs1 : Reg) (imm : Word) (s : State) : exec (.slli rd rs1 imm) s =
    .next (s.writeBack rd (BitVec.ofNat 32 ((s.readReg rs1).toNat * 2 ^ (immLow imm).toNat))) :=
  congrArg (fun v => Host.Outcome.next (s.writeBack rd v)) (aluSll_eq ..)

/-- Settles O17: the shift amount is the word's `rs2` field, whatever stands above it. -/
theorem slliIgnoresUpperImmediate : Obligations.SlliIgnoresUpperImmediate := by
  intro cfg raw hop hf3
  refine ⟨_, decode_slli hop hf3, fun s => ⟨_, exec_slli .., ?_⟩⟩
  rw [immLow_immI]
  exact regResult_writeBack ..

/-- Settles O16: the fields an `ecall` carries are arguments `execEcall` does not use. -/
theorem ecallIgnoresItsOtherBits : Obligations.EcallIgnoresItsOtherBits :=
  fun _ _ _ h h' => ⟨_, _, decode_ecall h, decode_ecall h', ⟨_, _, _, _, rfl⟩, fun _ => rfl⟩

/-! ### Pseudo-instructions (R131) -/

/-- A register reads its own value back after it is written there, the hard-wired register too (R31, R32). -/
theorem written_readReg (s : State) (r : Reg) : written s r (s.readReg r) = s.readReg r := by
  unfold written
  split_ifs with h
  · obtain ⟨hx, rfl⟩ := h
    exact (State.readReg_zero_of_hardwired hx).symm
  · rfl

/-- The write-back of a register's own value changes only the pc. -/
theorem pcResult_writeBack_readReg (s : State) (r : Reg) : PcResult s (s.writeBack r (s.readReg r)) (s.pc + 4) := by
  obtain ⟨hsame, hother, hrest⟩ := regResult_writeBack s r (s.readReg r)
  refine ⟨fun r' => ?_, hrest⟩
  by_cases he : r' = r
  · rw [he, hsame, written_readReg]
  · exact hother r' he

theorem exec_addi_zero (rd rs : Reg) (s : State) : exec (.addi rd rs 0) s = .next (s.writeBack rd (s.readReg rs)) :=
  congrArg (fun v => Host.Outcome.next (s.writeBack rd v)) (BitVec.add_zero _)

theorem exec_xori_neg_one (rd rs : Reg) (s : State) :
    exec (.xori rd rs (-1)) s = .next (s.writeBack rd (~~~ s.readReg rs)) :=
  congrArg (fun v => Host.Outcome.next (s.writeBack rd v)) (BitVec.xor_allOnes)

/-- Settles O53: none of the three expansions takes `x0` for a zero. -/
theorem nopMvAndNotWork : Obligations.NopMvAndNotWork := by
  intro s
  refine ⟨⟨_, _, rfl, exec_addi_zero 0 0 s, pcResult_writeBack_readReg s 0⟩, fun rd rs => ⟨?_, ?_⟩⟩
  · exact ⟨_, _, rfl, exec_addi_zero rd rs s, regResult_writeBack ..⟩
  · exact ⟨_, _, rfl, exec_xori_neg_one rd rs s, regResult_writeBack ..⟩

end Sys2Proof.Machine

end

section
/-!
PROOF. The sign extension unit and the offset assembly as numbers, and the round trip of the offsets
(40_sign_extension_and_offset_assembly.md R141 to R146; O25, O26, O27).
-/

namespace Sys2Proof.Machine

/-! ### Sign extension (R141) -/

/-- A field aligned to the top and shifted back arithmetically is the extension of its low bits, at every width. -/
theorem signExtend_setWidth_eq_sshiftRight {w : Nat} (h1 : 1 ≤ w) (h32 : w ≤ 32) (field : Word) :
    (field.setWidth w).signExtend 32 = (field <<< (32 - w)).sshiftRight (32 - w) := by
  apply BitVec.eq_of_getLsbD_eq
  intro j hj
  rw [BitVec.getLsbD_signExtend, BitVec.getLsbD_sshiftRight, BitVec.msb_shiftLeft, BitVec.msb_setWidth,
    BitVec.getMsbD_eq_getLsbD, BitVec.getLsbD_setWidth, BitVec.getLsbD_shiftLeft]
  have hsign : 32 - 1 - (32 - w) = w - 1 := by omega
  have hback : 32 - w + j - (32 - w) = j := by omega
  by_cases hjw : j < w
  · simp [hj, hjw, hback, show 32 - w + j < 32 by omega]
  · simp [hj, hjw, hsign, Nat.not_le.mpr hj, show 0 < w from h1, show ¬ 32 - w + j < 32 by omega,
      show 32 - w < 32 by omega]

/-- A number below `2^w` read as a `w`-bit two's-complement number. -/
theorem toInt_ofNat_of_lt {w n : Nat} (hn : n < 2 ^ w) :
    (BitVec.ofNat w n).toInt = if n.testBit (w - 1) then (n : Int) - 2 ^ w else n := by
  rw [BitVec.toInt_eq_msb_cond, BitVec.msb_eq_getLsbD_last, BitVec.getLsbD, BitVec.toNat_ofNat, Nat.mod_eq_of_lt hn,
    Nat.cast_pow, Nat.cast_ofNat]

/-- Settles O25: the unit widens the low `w` bits, and so do the two shifts. -/
theorem signExtendIsTwosComplement : Obligations.SignExtendIsTwosComplement := by
  intro w n h1 h32 hn
  have hfield : (BitVec.ofNat 32 n).toNat < 2 ^ w := by
    rw [BitVec.toNat_ofNat]
    exact Nat.lt_of_le_of_lt (Nat.mod_le ..) hn
  rw [signExtend_eq h1 h32 hfield]
  refine ⟨?_, signExtend_setWidth_eq_sshiftRight h1 h32 _⟩
  rw [BitVec.toInt_signExtend_of_le h32, BitVec.setWidth_ofNat_of_le h32, toInt_ofNat_of_lt hn]

/-! ### The place values of the fragment bits (R143 to R145) -/

/-- A sign bit alone counts -1. -/
theorem toInt_bit (b : BitVec 1) : b.toInt = -b.toNat := by
  revert b
  decide

/-- Branch and jump offsets have one shape: a sign bit, three groups of bits below it, and a zero for bit 0. -/
theorem toInt_sext_groups {l m n : Nat} (h32 : 1 + l + m + n + 1 ≤ 32) (sign : BitVec 1) (b : BitVec l) (c : BitVec m)
    (d : BitVec n) : (sext (sign ++ b ++ c ++ d ++ 0#1)).toInt =
      2 * (2 ^ n * (2 ^ m * (2 ^ l * -sign.toNat + b.toNat) + c.toNat) + d.toNat) := by
  have hpos : ∀ k, (1 + k == 0) = false := fun k => beq_false_of_ne (by omega)
  rw [toInt_sext (by omega) h32, BitVec.toInt_append_zero, BitVec.toInt_append, BitVec.toInt_append, BitVec.toInt_append,
    toInt_bit]
  simp [Nat.add_assoc, hpos]

theorem toInt_branchOffset (imm5 : BitVec 5) (imm7 : BitVec 7) : (branchOffset imm5 imm7).toInt =
    -4096 * (imm7.toNat / 64) + 2048 * (imm5.toNat % 2) + 32 * (imm7.toNat % 64) + 2 * (imm5.toNat / 2) := by
  rw [branchOffset, toInt_sext_groups (by decide)]
  simp only [BitVec.extractLsb'_toNat, Nat.shiftRight_eq_div_pow]
  have := imm5.isLt
  have := imm7.isLt
  omega

theorem toInt_jumpOffset (imm20 : BitVec 20) : (jumpOffset imm20).toInt =
    -1048576 * (imm20.toNat / 2 ^ 19) + 4096 * (imm20.toNat % 256) + 2048 * (imm20.toNat / 256 % 2)
      + 2 * (imm20.toNat / 512 % 1024) := by
  rw [jumpOffset, toInt_sext_groups (by decide)]
  simp only [BitVec.extractLsb'_toNat, Nat.shiftRight_eq_div_pow]
  have := imm20.isLt
  omega

theorem toInt_storeOffset (imm5 : BitVec 5) (imm7 : BitVec 7) : (storeOffset imm5 imm7).toInt =
    -2048 * (imm7.toNat / 64) + 32 * (imm7.toNat % 64) + imm5.toNat := by
  rw [storeOffset, toInt_sext (by decide) (by decide), BitVec.toInt_append, if_neg (by decide), BitVec.toInt_eq_toNat_cond]
  have := imm7.isLt
  split <;> omega

/-- Settles O26: each offset by the groups of bits it is concatenated from. -/
theorem offsetsHaveTheirPlaceValues : Obligations.OffsetsHaveTheirPlaceValues :=
  ⟨toInt_branchOffset, toInt_jumpOffset, toInt_storeOffset⟩

/-! ### The round trip (R146) -/

/-- A word that `n` bits can represent is the extension of its low `n` bits. -/
theorem sext_extractLsb'_zero {n : Nat} (h1 : 1 ≤ n) (h32 : n ≤ 32) {o : Word} (hlow : -(2 ^ n : Nat) ≤ o.toInt * 2)
    (hhigh : o.toInt * 2 < (2 ^ n : Nat)) : sext (o.extractLsb' 0 n) = o := by
  apply BitVec.eq_of_toInt_eq
  rw [toInt_sext h1 h32, ← BitVec.setWidth_eq_extractLsb' h32, ← BitVec.signExtend_eq_setWidth_of_le _ h32,
    BitVec.toInt_signExtend_eq_toInt_bmod_of_le _ h32, Int.bmod_eq_of_le_mul_two hlow hhigh]

/-- Bit 0 of an even word, which the fragments leave out. -/
theorem zero_eq_extractLsb'_of_even {o : Word} (h : o.toNat % 2 = 0) : 0#1 = o.extractLsb' 0 1 :=
  BitVec.eq_of_toNat_eq h.symm

/-- Branch assembly puts the groups of its fragments in their places (R143). -/
theorem branchOffset_append (sign : BitVec 1) (b : BitVec 1) (c : BitVec 6) (d : BitVec 4) :
    branchOffset (d ++ b) (sign ++ c) = sext (sign ++ b ++ c ++ d ++ 0#1) := by
  rw [branchOffset, BitVec.extractLsb'_append_eq_left, BitVec.extractLsb'_append_eq_right,
    BitVec.extractLsb'_append_eq_right, BitVec.extractLsb'_append_eq_left]

/-- Jump assembly puts the groups of its fragment in their places (R144, with C1). -/
theorem jumpOffset_append (sign : BitVec 1) (b : BitVec 8) (c : BitVec 1) (d : BitVec 10) :
    jumpOffset (sign ++ d ++ c ++ b) = sext (sign ++ b ++ c ++ d ++ 0#1) := by
  have hsign : (sign ++ d ++ c ++ b).extractLsb' 19 1 = sign := by
    rw [BitVec.extractLsb'_append_eq_of_le (by decide), BitVec.extractLsb'_append_eq_of_le (by decide),
      BitVec.extractLsb'_append_eq_left]
  have hd : (sign ++ d ++ c ++ b).extractLsb' 9 10 = d := by
    rw [BitVec.extractLsb'_append_eq_of_le (by decide), BitVec.extractLsb'_append_eq_of_le (by decide),
      BitVec.extractLsb'_append_eq_right]
  have hc : (sign ++ d ++ c ++ b).extractLsb' 8 1 = c := by
    rw [BitVec.extractLsb'_append_eq_of_le (by decide), BitVec.extractLsb'_append_eq_right]
  rw [jumpOffset, hsign, hd, hc, BitVec.extractLsb'_append_eq_right]

theorem branchOffset_branchFragments {o : Word} (h : BranchOffsetFits o) :
    branchOffset (branchFragments o).1 (branchFragments o).2 = o := by
  obtain ⟨hlow, hhigh, heven⟩ := h
  rw [branchFragments, branchOffset_append, zero_eq_extractLsb'_of_even heven]
  simp only [BitVec.extractLsb'_append_extractLsb'_eq_extractLsb']
  exact sext_extractLsb'_zero (by decide) (by decide) (by omega) (by omega)

theorem jumpOffset_jumpFragment {o : Word} (h : JumpOffsetFits o) : jumpOffset (jumpFragment o) = o := by
  obtain ⟨hlow, hhigh, heven⟩ := h
  rw [jumpFragment, jumpOffset_append, zero_eq_extractLsb'_of_even heven]
  simp only [BitVec.extractLsb'_append_extractLsb'_eq_extractLsb']
  exact sext_extractLsb'_zero (by decide) (by decide) (by omega) (by omega)

theorem storeOffset_storeFragments {o : Word} (h : Imm12Fits o) :
    storeOffset (storeFragments o).1 (storeFragments o).2 = o :=
  (congrArg sext (immHigh_append_immLow o)).trans (sext_imm12Of h)

/-- Settles O27: assembly puts consecutive groups of the offset's bits side by side again, and extends them. -/
theorem offsetAssemblyRoundTrips : Obligations.OffsetAssemblyRoundTrips :=
  ⟨fun _ => branchOffset_branchFragments, fun _ => jumpOffset_jumpFragment, fun _ => storeOffset_storeFragments⟩

end Sys2Proof.Machine

end

section
/-!
PROOF. R-type arithmetic (41_r_type_alu.md R160 to R173): the rule of every register-register instruction, and the laws that
tie `div` to `rem` and `mul` to `mulh` (O1 to O5, O50, O51).
-/

namespace Sys2Proof.Machine

variable {f3 : BitVec 3} {f7 : BitVec 7} {fixed : Word} {mk : Reg → Reg → Reg → Instr} {f : Word → Word → Word}

/-! ### The rule of an instruction from its row and its ALU operation -/

/-- The words of a row of opcode `0x33` decode to the instruction its pair selects, with their own fields (R112, R113). -/
theorem rowDecodes_of_selectArith (hsel : ∀ rd rs1 rs2, selectArith rd rs1 rs2 f3 f7 = some (mk rd rs1 rs2)) :
    RowDecodes 0xFE00707F (rWord f7 0 0 f3 0 0x33) (fun raw => mk (rdField raw) (rs1Field raw) (rs2Field raw)) := by
  intro cfg raw hrow
  have hdecode := decode_of_selectArith (cfg := cfg) (hsel (rdField raw) (rs1Field raw) (rs2Field raw))
  rwa [rWord_of_mask_rType hrow] at hdecode

/-- An instruction of opcode `0x33` whose ALU operation `g` computes `f` meets the rule of `f`. -/
theorem regRegRule_of_selectArith (g : Word → Word → Word) (f3 : BitVec 3) (f7 : BitVec 7)
    (hfixed : rWord f7 0 0 f3 0 0x33 = fixed)
    (hsel : ∀ rd rs1 rs2, selectArith rd rs1 rs2 f3 f7 = some (mk rd rs1 rs2))
    (hexec : ∀ rd rs1 rs2 s, exec (mk rd rs1 rs2) s = execRegReg g rd rs1 rs2 s) (hvalue : ∀ a b, g a b = f a b) :
    RegRegRule fixed mk f := by
  refine ⟨hfixed ▸ rowDecodes_of_selectArith hsel, fun s rd rs1 rs2 => ⟨_, hexec rd rs1 rs2 s, ?_⟩⟩
  rw [hvalue]
  exact regResult_writeBack ..

/-- What the rule says of one run: the destination, unless hard-wired, reads the value of `f`. -/
theorem RegRegRule.readReg_eq (hrule : RegRegRule fixed mk f) {s t : State} {rd rs1 rs2 : Reg}
    (hrd : ¬ (s.cfg.x0Hardwired = true ∧ rd = 0)) (hexec : exec (mk rd rs1 rs2) s = .next t) :
    t.readReg rd = f (s.readReg rs1) (s.readReg rs2) := by
  obtain ⟨-, hrun⟩ := hrule
  obtain ⟨t', ht', hread, -⟩ := hrun s rd rs1 rs2
  cases ht'.symm.trans hexec
  exact hread.trans (if_neg hrd)

/-! ### Sum and difference, comparison and bitwise operations -/

/-- Settles O1: the ALU operations are the sum and the difference of words. -/
theorem addAndSubWriteSumAndDifference : Obligations.AddAndSubWriteSumAndDifference :=
  ⟨regRegRule_of_selectArith aluAdd 0 0x00 rfl (fun _ _ _ => rfl) (fun _ _ _ _ => rfl) fun _ _ => rfl,
    regRegRule_of_selectArith aluSub 0 0x20 rfl (fun _ _ _ => rfl) (fun _ _ _ _ => rfl) fun _ _ => rfl⟩

/-- Settles O4: `slt` by `aluSlt_eq`; the bitwise operations are those of words. -/
theorem compareAndBitwiseResults : Obligations.CompareAndBitwiseResults :=
  ⟨regRegRule_of_selectArith aluSlt 2 0x00 rfl (fun _ _ _ => rfl) (fun _ _ _ _ => rfl) aluSlt_eq,
    regRegRule_of_selectArith aluXor 4 0x00 rfl (fun _ _ _ => rfl) (fun _ _ _ _ => rfl) fun _ _ => rfl,
    regRegRule_of_selectArith aluOr 6 0x00 rfl (fun _ _ _ => rfl) (fun _ _ _ _ => rfl) fun _ _ => rfl,
    regRegRule_of_selectArith aluAnd 7 0x00 rfl (fun _ _ _ => rfl) (fun _ _ _ _ => rfl) fun _ _ => rfl⟩

/-! ### Shifts -/

/-- Settles O3: the arithmetic of each shift by an amount, and the amount as a register value modulo 32. -/
theorem registerShiftsUseLowFiveBits : Obligations.RegisterShiftsUseLowFiveBits := by
  refine ⟨regRegRule_of_selectArith (fun a b => aluSll a (shamtReg b)) 1 0x00 rfl (fun _ _ _ => rfl) (fun _ _ _ _ => rfl)
      fun a b => ?sll,
    regRegRule_of_selectArith (fun a b => aluSrl a (shamtReg b)) 5 0x00 rfl (fun _ _ _ => rfl) (fun _ _ _ _ => rfl)
      fun a b => ?srl,
    regRegRule_of_selectArith (fun a b => aluSra a (shamtReg b)) 5 0x20 rfl (fun _ _ _ => rfl) (fun _ _ _ _ => rfl)
      fun a b => ?sra⟩
  case sll => rw [aluSll_eq, toNat_shamtReg]
  case srl => rw [aluSrl_eq, toNat_shamtReg]
  case sra => rw [aluSra_eq, toNat_shamtReg]

/-! ### Products -/

/-- Settles O2: the halves of the 64-bit product are the product modulo 2^32 and its quotient by 2^32. -/
theorem mulAndMulhWriteProductHalves : Obligations.MulAndMulhWriteProductHalves :=
  ⟨regRegRule_of_selectArith aluMul 0 0x01 rfl (fun _ _ _ => rfl) (fun _ _ _ _ => rfl) aluMul_eq,
    regRegRule_of_selectArith aluMulh 1 0x01 rfl (fun _ _ _ => rfl) (fun _ _ _ _ => rfl) aluMulh_eq⟩

/-- The high half of a signed product is small enough to be its own signed value (R165). -/
theorem Word.toInt_ofInt_mulHigh (a b : Word) :
    (BitVec.ofInt 32 (a.toInt * b.toInt / 2 ^ 32)).toInt = a.toInt * b.toInt / 2 ^ 32 := by
  have hlow : -2 ^ 62 ≤ a.toInt * b.toInt := BitVec.le_toInt_mul_toInt
  have hhigh : a.toInt * b.toInt ≤ 2 ^ 62 := BitVec.toInt_mul_toInt_le
  exact BitVec.toInt_ofInt_eq_self (by decide) (by omega) (by omega)

/-- Settles O51: the halves are the quotient and the remainder of the exact product by 2^32. -/
theorem productHalvesRecompose : Obligations.ProductHalvesRecompose := by
  intro s t u lo hi rs1 rs2 hrd hmul hmulh
  obtain ⟨mulRule, mulhRule⟩ := mulAndMulhWriteProductHalves
  rw [mulRule.readReg_eq (by tauto) hmul, mulhRule.readReg_eq (by tauto) hmulh, Word.toInt_ofInt_mulHigh,
    BitVec.toNat_ofInt]
  omega

/-! ### Quotient and remainder -/

theorem aluDiv_eq (a b : Word) : aluDiv a b =
    if b = 0 then 0xFFFFFFFF else if a = 0x80000000 ∧ b = 0xFFFFFFFF then 0x80000000
    else BitVec.ofInt 32 (a.toInt.tdiv b.toInt) := by
  simp only [aluDiv, Word.toInt_eq_zero_iff, Word.overflowPair_iff]

theorem aluRem_eq (a b : Word) : aluRem a b =
    if b = 0 then a else if a = 0x80000000 ∧ b = 0xFFFFFFFF then 0 else BitVec.ofInt 32 (a.toInt.tmod b.toInt) := by
  simp only [aluRem, Word.toInt_eq_zero_iff, Word.overflowPair_iff, Int.tmod_def]

/-- Settles O5: the corner lines of the ALU, read on words, are those of the spec. -/
theorem divAndRemRoundTowardZero : Obligations.DivAndRemRoundTowardZero :=
  ⟨regRegRule_of_selectArith aluDiv 4 0x01 rfl (fun _ _ _ => rfl) (fun _ _ _ _ => rfl) aluDiv_eq,
    regRegRule_of_selectArith aluRem 6 0x01 rfl (fun _ _ _ => rfl) (fun _ _ _ _ => rfl) aluRem_eq⟩

/-- But for the overflow pair, a quotient is representable (R168). -/
theorem Word.toInt_ofInt_tdiv {a b : Word} (h : ¬ (a = 0x80000000 ∧ b = 0xFFFFFFFF)) :
    (BitVec.ofInt 32 (a.toInt.tdiv b.toInt)).toInt = a.toInt.tdiv b.toInt := by
  have hsdiv : (a.sdiv b).toInt = a.toInt.tdiv b.toInt :=
    BitVec.toInt_sdiv_of_ne_or_ne a b (Decidable.not_and_iff_or_not.mp h)
  rw [← hsdiv, BitVec.ofInt_toInt]

/-- A remainder is always representable (R172). -/
theorem Word.toInt_ofInt_tmod (a b : Word) : (BitVec.ofInt 32 (a.toInt.tmod b.toInt)).toInt = a.toInt.tmod b.toInt := by
  rw [← BitVec.toInt_srem, BitVec.ofInt_toInt]

theorem abs_tmod_lt (n : Int) {d : Int} (hd : d ≠ 0) : |n.tmod d| < |d| := by
  rw [Int.abs_eq_natAbs, Int.abs_eq_natAbs, Int.natAbs_tmod]
  exact_mod_cast Nat.mod_lt _ (Int.natAbs_pos.mpr hd)

theorem tmod_nonpos {n : Int} (d : Int) (hn : n ≤ 0) : n.tmod d ≤ 0 := by
  have hneg := Int.tmod_nonneg d (neg_nonneg.mpr hn)
  rw [Int.neg_tmod] at hneg
  exact neg_nonneg.mp hneg

/-- Settles O50: outside the corner lines the two results are the exact quotient and remainder, rounded toward zero. -/
theorem quotientAndRemainderRecompose : Obligations.QuotientAndRemainderRecompose := by
  intro s t u q r rs1 rs2 hrd hzero hpair hdiv hrem
  obtain ⟨divRule, remRule⟩ := divAndRemRoundTowardZero
  have hq := divRule.readReg_eq (by tauto) hdiv
  have hr := remRule.readReg_eq (by tauto) hrem
  rw [if_neg hzero, if_neg hpair] at hq hr
  rw [hq, hr, Word.toInt_ofInt_tdiv hpair, Word.toInt_ofInt_tmod]
  exact ⟨Int.mul_tdiv_add_tmod .., abs_tmod_lt _ (mt (Word.toInt_eq_zero_iff _).mp hzero), Int.tmod_nonneg _,
    tmod_nonpos _⟩

end Sys2Proof.Machine
end

section
/-!
PROOF. I-type arithmetic (42_i_type_alu.md R180 to R188): the rule of every instruction with a sign-extended immediate, and of
the right shifts by an immediate amount (O6, O7).
-/

namespace Sys2Proof.Machine

variable {f3 : BitVec 3} {f7 op : BitVec 7} {fixed : Word}

/-! ### The rule of an instruction from its row and its ALU operation -/

/-- The words of an I-format row that is told by opcode and funct3 alone decode to the instruction those two select, with
the signed number in bits 31 to 20 as its immediate (R109, R112). -/
theorem rowDecodes_of_decode_iWord {mk : Reg → Reg → Word → Instr}
    (hdecode : ∀ cfg rd rs1 imm, Imm12Fits imm → decode cfg (iWord (imm12Of imm) rs1 f3 rd op) = .ok (mk rd rs1 imm)) :
    RowDecodes 0x0000707F (rWord 0 0 0 f3 0 op)
      (fun raw => mk (rdField raw) (rs1Field raw) (BitVec.ofInt 32 (imm12Field raw).toInt)) := by
  intro cfg raw hrow
  have hraw := hdecode cfg (rdField raw) (rs1Field raw) (immI raw) (imm12Fits_immI raw)
  rwa [iWord_of_mask_funct3 hrow, immI_eq] at hraw

/-- An instruction of opcode `0x13` told by funct3 alone, whose ALU operation `g` computes `f`, meets the rule of `f`. -/
theorem regImmRule_of_selectArithImm {mk : Reg → Reg → Word → Instr} {f : Word → Word → Word} (g : Word → Word → Word)
    (f3 : BitVec 3) (hfixed : rWord 0 0 0 f3 0 0x13 = fixed)
    (hsel : ∀ rd rs1 imm, selectArithImm rd rs1 f3 imm = some (mk rd rs1 imm))
    (hexec : ∀ rd rs1 imm s, exec (mk rd rs1 imm) s = execRegImm (g · imm) rd rs1 s) (hvalue : ∀ a imm, g a imm = f a imm) :
    RegImmRule fixed mk f := by
  refine ⟨hfixed ▸ rowDecodes_of_decode_iWord fun _ rd rs1 imm hfits => decode_of_selectArithImm hfits (hsel rd rs1 imm),
    fun s rd rs1 imm => ⟨_, hexec rd rs1 imm s, ?_⟩⟩
  rw [← hvalue]
  exact regResult_writeBack ..

/-- The words of a right-shift row decode to the instruction whose encoding has that row's funct7, with the shift amount in
the place of `rs2` (R112, R114). -/
theorem rowDecodes_of_encode_shiftRight {mk : Reg → Reg → BitVec 5 → Instr}
    (hwf : ∀ cfg rd rs1 shamt, (mk rd rs1 shamt).WellFormed cfg)
    (hencode : ∀ cfg rd rs1 shamt, encode cfg (mk rd rs1 shamt) = rWord f7 shamt rs1 5 rd 0x13) :
    RowDecodes 0xFE00707F (rWord f7 0 0 5 0 0x13) (fun raw => mk (rdField raw) (rs1Field raw) (rs2Field raw)) := by
  intro cfg raw hrow
  have hdecode := decode_encode (hwf cfg (rdField raw) (rs1Field raw) (rs2Field raw))
  rwa [hencode, rWord_of_mask_rType hrow] at hdecode

/-- A right shift by an immediate amount whose ALU operation `g` computes `f` meets the rule of `f`. -/
theorem shiftImmRule_of_encode {mk : Reg → Reg → BitVec 5 → Instr} {f : Word → Nat → Word} (g : Word → BitVec 5 → Word)
    (f7 : BitVec 7) (hfixed : rWord f7 0 0 5 0 0x13 = fixed)
    (hwf : ∀ cfg rd rs1 shamt, (mk rd rs1 shamt).WellFormed cfg)
    (hencode : ∀ cfg rd rs1 shamt, encode cfg (mk rd rs1 shamt) = rWord f7 shamt rs1 5 rd 0x13)
    (hexec : ∀ rd rs1 shamt s, exec (mk rd rs1 shamt) s = execRegImm (g · shamt) rd rs1 s)
    (hvalue : ∀ a shamt, g a shamt = f a shamt.toNat) : ShiftImmRule fixed mk f := by
  refine ⟨hfixed ▸ rowDecodes_of_encode_shiftRight hwf hencode, fun s rd rs1 shamt => ⟨_, hexec rd rs1 shamt s, ?_⟩⟩
  rw [← hvalue]
  exact regResult_writeBack ..

/-! ### Shifts by an immediate -/

/-- R180: the amount is the immediate modulo 32. -/
theorem toNat_shamtImm (imm : Word) : (shamtImm imm).toNat = imm.toNat % 32 := by
  simp [shamtImm, immLow, BitVec.extractLsb'_toNat]

/-- Settles O7: the arithmetic of each shift by an amount; `slli` takes it from the whole immediate, the right shifts carry
it. -/
theorem immediateShiftsUseLowFiveBits : Obligations.ImmediateShiftsUseLowFiveBits := by
  refine ⟨regImmRule_of_selectArithImm (fun a imm => aluSll a (shamtImm imm)) 1 rfl (fun _ _ _ => rfl)
      (fun _ _ _ _ => rfl) fun a imm => ?slli,
    shiftImmRule_of_encode aluSrl 0x00 rfl (fun _ _ _ _ => trivial) (fun _ _ _ _ => rfl) (fun _ _ _ _ => rfl) aluSrl_eq,
    shiftImmRule_of_encode aluSra 0x20 rfl (fun _ _ _ _ => trivial) (fun _ _ _ _ => rfl) (fun _ _ _ _ => rfl) aluSra_eq⟩
  case slli => rw [aluSll_eq, toNat_shamtImm]

/-! ### Sum, comparison and bitwise operations with an immediate -/

/-- The sum of words is the sum of their signed numbers modulo 2^32 (R181). -/
theorem aluAdd_eq_ofInt (a b : Word) : aluAdd a b = BitVec.ofInt 32 (a.toInt + b.toInt) := by
  rw [aluAdd, BitVec.ofInt_add, BitVec.ofInt_toInt, BitVec.ofInt_toInt]

/-- Settles O6: `addi` by `aluAdd_eq_ofInt`, `slti` by `aluSlt_eq`; the bitwise operations are those of words. -/
theorem immediateArithmeticSignExtends : Obligations.ImmediateArithmeticSignExtends :=
  ⟨regImmRule_of_selectArithImm aluAdd 0 rfl (fun _ _ _ => rfl) (fun _ _ _ _ => rfl) aluAdd_eq_ofInt,
    regImmRule_of_selectArithImm aluSlt 2 rfl (fun _ _ _ => rfl) (fun _ _ _ _ => rfl) aluSlt_eq,
    regImmRule_of_selectArithImm aluXor 4 rfl (fun _ _ _ => rfl) (fun _ _ _ _ => rfl) fun _ _ => rfl,
    regImmRule_of_selectArithImm aluOr 6 rfl (fun _ _ _ => rfl) (fun _ _ _ _ => rfl) fun _ _ => rfl,
    regImmRule_of_selectArithImm aluAnd 7 rfl (fun _ _ _ => rfl) (fun _ _ _ _ => rfl) fun _ _ => rfl⟩

end Sys2Proof.Machine

end

section
/-!
PROOF. Loads (43_loads.md R195 to R198): the rule of every load (O8).
-/

namespace Sys2Proof.Machine

/-- A load's run, on the two sides of the bounds condition (R195): in bounds, the signed number of its bytes goes to `x[rd]`;
out of bounds, the raise. -/
theorem execLoad_result (w : Width) (rd rs1 : Reg) (imm : Word) (s : State) :
    ((s.loadAddress rs1 imm).toNat + w.bytes ≤ s.cfg.memSize → ∃ t, execLoad w rd rs1 imm s = .next t
        ∧ RegResult s t rd (BitVec.ofInt 32 (signedBytes s (s.loadAddress rs1 imm).toNat w)) (s.pc + 4))
      ∧ (s.cfg.memSize < (s.loadAddress rs1 imm).toNat + w.bytes → ∃ t, execLoad w rd rs1 imm s = .next t
        ∧ FatalHalt s t .outOfBoundsMemoryAccess (s.loadAddress rs1 imm)) := by
  refine ⟨fun hin => ⟨_, execLoad_inBounds hin, ?_⟩, fun hout => ⟨_, execLoad_outOfBounds hout, fatalHalt_raise ..⟩⟩
  rw [signExtend_readBytes]
  exact regResult_writeBack ..

/-- An instruction of opcode `0x03` that runs as the load of width `w` meets the rule of that width. -/
theorem loadRule_of_selectLoad {fixed : Word} {mk : Reg → Reg → Word → Instr} (w : Width) (f3 : BitVec 3)
    (hfixed : rWord 0 0 0 f3 0 0x03 = fixed) (hsel : ∀ rd rs1 imm, selectLoad rd rs1 f3 imm = some (mk rd rs1 imm))
    (hexec : ∀ rd rs1 imm s, exec (mk rd rs1 imm) s = execLoad w rd rs1 imm s) : LoadRule fixed mk w := by
  refine ⟨hfixed ▸ rowDecodes_of_decode_iWord fun _ rd rs1 imm hfits => decode_of_selectLoad hfits (hsel rd rs1 imm), ?_⟩
  rintro s rd rs1 imm _ rfl
  rw [hexec]
  exact execLoad_result w rd rs1 imm s

/-- Settles O8: one rule for the three widths. -/
theorem loadsSignExtendOrHalt : Obligations.LoadsSignExtendOrHalt :=
  ⟨loadRule_of_selectLoad .byte 0 rfl (fun _ _ _ => rfl) fun _ _ _ _ => rfl,
    loadRule_of_selectLoad .half 1 rfl (fun _ _ _ => rfl) fun _ _ _ _ => rfl,
    loadRule_of_selectLoad .word 2 rfl (fun _ _ _ => rfl) fun _ _ _ _ => rfl⟩

end Sys2Proof.Machine

end

section
/-!
PROOF. Stores (44_stores.md R205 to R208): the rule of every store (O9).
-/

namespace Sys2Proof.Machine

/-- The words of an S-format row decode to the instruction its opcode and funct3 select, with their own fields (R112). -/
theorem rowDecodes_of_decode_sWord {f3 : BitVec 3} {op : BitVec 7} {mk : Reg → Reg → BitVec 5 → BitVec 7 → Instr}
    (hdecode : ∀ cfg rs1 rs2 imm5 imm7, decode cfg (sWord imm7 rs2 rs1 f3 imm5 op) = .ok (mk rs1 rs2 imm5 imm7)) :
    RowDecodes 0x0000707F (rWord 0 0 0 f3 0 op)
      (fun raw => mk (rs1Field raw) (rs2Field raw) (imm5Field raw) (imm7Field raw)) := by
  intro cfg raw hrow
  have hraw := hdecode cfg (rs1Field raw) (rs2Field raw) (imm5Field raw) (imm7Field raw)
  rwa [sWord_of_mask_funct3 hrow] at hraw

/-- A write of the low bytes of a value to canonical memory, with the pc advanced, gives the store result of that value. -/
theorem storeResult_writeBytes {s : State} (hwf : s.mem.wf) (w : Width) (ea v : Word) :
    StoreResult s (State.advancePc { s with mem := s.mem.writeBytes ea.toNat v w.bytes }) w ea v :=
  ⟨fun r => State.readReg_congr r rfl rfl, rfl, fun _ hk => Memory.read_writeBytes_inside hwf _ v hk,
    fun _ hx => Memory.read_writeBytes_outside hwf v hx, rfl, rfl, rfl⟩

/-- A store's run, on the two sides of the bounds condition (R205): in bounds, the low bytes of `x[rs2]` are stored; out of
bounds, the raise. -/
theorem execStore_result {s : State} (hwf : s.mem.wf) (w : Width) (rs1 rs2 : Reg) (imm5 : BitVec 5) (imm7 : BitVec 7) :
    ((s.storeAddress rs1 imm5 imm7).toNat + w.bytes ≤ s.cfg.memSize → ∃ t, execStore w rs1 rs2 imm5 imm7 s = .next t
        ∧ StoreResult s t w (s.storeAddress rs1 imm5 imm7) (s.readReg rs2))
      ∧ (s.cfg.memSize < (s.storeAddress rs1 imm5 imm7).toNat + w.bytes → ∃ t, execStore w rs1 rs2 imm5 imm7 s = .next t
        ∧ FatalHalt s t .outOfBoundsMemoryAccess (s.storeAddress rs1 imm5 imm7)) :=
  ⟨fun hin => ⟨_, execStore_inBounds hin, storeResult_writeBytes hwf ..⟩,
    fun hout => ⟨_, execStore_outOfBounds hout, fatalHalt_raise ..⟩⟩

/-- An instruction of opcode `0x23` that runs as the store of width `w` meets the rule of that width. -/
theorem storeRule_of_selectStore {fixed : Word} {mk : Reg → Reg → BitVec 5 → BitVec 7 → Instr} (w : Width) (f3 : BitVec 3)
    (hfixed : rWord 0 0 0 f3 0 0x23 = fixed)
    (hsel : ∀ rs1 rs2 imm5 imm7, selectStore rs1 rs2 f3 imm5 imm7 = some (mk rs1 rs2 imm5 imm7))
    (hexec : ∀ rs1 rs2 imm5 imm7 s, exec (mk rs1 rs2 imm5 imm7) s = execStore w rs1 rs2 imm5 imm7 s) :
    StoreRule fixed mk w := by
  refine ⟨hfixed ▸ rowDecodes_of_decode_sWord fun _ rs1 rs2 imm5 imm7 => decode_of_selectStore (hsel rs1 rs2 imm5 imm7), ?_⟩
  rintro s rs1 rs2 imm5 imm7 hwf _ rfl
  rw [hexec, ← storeOffset_eq]
  exact execStore_result hwf w rs1 rs2 imm5 imm7

/-- Settles O9: one rule for the three widths. -/
theorem storesWriteLowBytesOrHalt : Obligations.StoresWriteLowBytesOrHalt :=
  ⟨storeRule_of_selectStore .byte 0 rfl (fun _ _ _ _ => rfl) fun _ _ _ _ _ => rfl,
    storeRule_of_selectStore .half 1 rfl (fun _ _ _ _ => rfl) fun _ _ _ _ _ => rfl,
    storeRule_of_selectStore .word 2 rfl (fun _ _ _ _ => rfl) fun _ _ _ _ _ => rfl⟩

end Sys2Proof.Machine

end

section
/-!
PROOF. Control transfer (45_branches_and_jump.md R215 to R218): the rules of the branches and of `jal`, and a transfer that
leaves memory (O10, O11, O38).
-/

namespace Sys2Proof.Machine

/-! ### A transfer goes on (R216, R264) -/

/-- A store's target is its data access (R67, R205). -/
theorem dataAccess_of_storeTarget {i : Instr} {s : State} {x : Word × Width} (h : storeTarget s i = some x) :
    dataAccess s i = some x := by
  cases i with
  | sb | sh | sw => exact h
  | _ => cases h

/-- An instruction that accesses no data and is no `ecall` raises nothing: the run goes on, at the pc of the table of R37. -/
theorem Change.sameRun_of_no_dataAccess {i : Instr} {s t : State} (hc : Change i s t) (hi : ¬ IsEcall i)
    (ha : dataAccess s i = none) : SameRun s t ∧ t.pc = nextPc s i := by
  cases hc with
  | register _ _ _ _ hp ht => exact ht ▸ ⟨⟨rfl, rfl, rfl⟩, hp⟩
  | jump _ _ _ ht => exact ht ▸ ⟨⟨rfl, rfl, rfl⟩, rfl⟩
  | store _ _ _ hm => exact nomatch ha.symm.trans (dataAccess_of_storeTarget hm)
  | outOfBounds _ _ hm => exact nomatch ha.symm.trans hm
  | event _ he | exit he | unknownService he => exact absurd he hi

/-- Settles O38: the transfer only moves the pc and links, so the next step raises at its fetch. -/
theorem transferOutsideMemoryRaisesAtTheNextFetch : Obligations.TransferOutsideMemoryRaisesAtTheNextFetch := by
  intro s i hs hpc hdecode htransfer hout
  have hplain : ¬ IsEcall i ∧ dataAccess s i = none := by
    obtain ⟨_, _, rfl⟩ | ⟨_, _, _, _, rfl⟩ | ⟨_, _, _, _, rfl⟩ := htransfer <;>
      exact ⟨fun ⟨_, _, _, _, he⟩ => (nomatch he), rfl⟩
  obtain ⟨hecall, haccess⟩ := hplain
  obtain ⟨t, ht⟩ := exec_next i s
  obtain ⟨⟨hstatus, -, hcfg⟩, htarget⟩ := (exec_change ht).sameRun_of_no_dataAccess hecall haccess
  have hrunning : t.status = .running := hstatus.trans hs
  rw [← htarget, ← hcfg] at hout
  rw [← htarget]
  exact ⟨t, _, (step_exec hs hpc hdecode).trans ht, hrunning, rfl, step_fetch_none hrunning hout, fatalHalt_raise ..⟩

/-! ### The branches (R215 to R217) -/

/-- Setting the pc changes nothing else. -/
theorem pcResult_setPc (s : State) (p : Word) : PcResult s (s.setPc p) p :=
  ⟨fun r => s.readReg_setPc r p, rfl, fun _ => rfl, rfl, rfl, rfl⟩

/-- A branch sets the pc to its target or to the next instruction's address (R215). -/
theorem execBranch_eq (taken : Bool) (imm5 : BitVec 5) (imm7 : BitVec 7) (s : State) :
    execBranch taken imm5 imm7 s = .next (s.setPc (if taken then s.pc + branchOffset imm5 imm7 else s.pc + 4)) := by
  cases taken <;> rfl

/-- An instruction of opcode `0x63` that runs as the branch on a condition meets the rule of that condition. -/
theorem branchRule_of_selectBranch {fixed : Word} {mk : Reg → Reg → BitVec 5 → BitVec 7 → Instr}
    (taken : Word → Word → Bool) (f3 : BitVec 3) (hfixed : rWord 0 0 0 f3 0 0x63 = fixed)
    (hsel : ∀ rs1 rs2 imm5 imm7, selectBranch rs1 rs2 f3 imm5 imm7 = some (mk rs1 rs2 imm5 imm7))
    (hexec : ∀ rs1 rs2 imm5 imm7 s,
      exec (mk rs1 rs2 imm5 imm7) s = execBranch (taken (s.readReg rs1) (s.readReg rs2)) imm5 imm7 s) :
    BranchRule fixed mk taken :=
  ⟨hfixed ▸ rowDecodes_of_decode_sWord fun _ rs1 rs2 imm5 imm7 => decode_of_selectBranch (hsel rs1 rs2 imm5 imm7),
    fun s rs1 rs2 imm5 imm7 =>
      ⟨_, (hexec rs1 rs2 imm5 imm7 s).trans (execBranch_eq ..), pcResult_setPc ..⟩⟩

/-- Settles O10: the condition of `beq` is equality of words, that of `bne` its negation. -/
theorem branchesCompareAllBits : Obligations.BranchesCompareAllBits :=
  ⟨branchRule_of_selectBranch (fun a b => a == b) 0 rfl (fun _ _ _ _ => rfl) fun _ _ _ _ _ => rfl,
    branchRule_of_selectBranch (fun a b => a != b) 1 rfl (fun _ _ _ _ => rfl) fun _ _ _ _ _ => rfl⟩

/-! ### The jump (R218) -/

/-- A register write with the pc set is the register result of the value and that pc. -/
theorem regResult_writeReg_setPc (s : State) (rd : Reg) (v p : Word) : RegResult s ((s.writeReg rd v).setPc p) rd v p := by
  refine ⟨?same, fun r hr => ?other, rfl, fun _ => rfl, rfl, rfl, rfl⟩
  case same => rw [State.readReg_setPc, State.readReg_writeReg_same, written]
  case other => rw [State.readReg_setPc, State.readReg_writeReg_other _ _ _ _ hr]

/-- Settles O11: the opcode alone decodes; the link is written before the pc is set, both from the old pc. -/
theorem jalLinksAndJumps : Obligations.JalLinksAndJumps :=
  ⟨fun _ _ hrow => decode_jal (fields_of_mask_opcode hrow),
    fun s rd imm20 => ⟨_, rfl, regResult_writeReg_setPc s rd (s.pc + 4) (s.pc + jumpOffset imm20)⟩⟩

end Sys2Proof.Machine

end

section
/-!
PROOF. Upper immediate (46_upper_immediate.md R230): the rule of `lui`, and the constant that `lui` then `addi` build
(30_encoding.md R131; O12, O52).
-/

namespace Sys2Proof.Machine

/-! ### The rule of `lui` -/

/-- The 20 bits with twelve zeros below them, as a number (R230). -/
theorem upperImm_eq (imm20 : BitVec 20) : upperImm imm20 = BitVec.ofNat 32 (imm20.toNat * 2 ^ 12) := by
  apply BitVec.eq_of_toNat_eq
  rw [upperImm, BitVec.toNat_append, BitVec.toNat_ofNat, Nat.shiftLeft_eq, BitVec.toNat_ofNat, Nat.zero_mod, Nat.or_zero,
    Nat.mod_eq_of_lt (by omega)]

theorem exec_lui (rd : Reg) (imm20 : BitVec 20) (s : State) :
    exec (.lui rd imm20) s = .next (s.writeBack rd (upperImm imm20)) := rfl

/-- Settles O12: the opcode alone decodes; the write-back holds the 20 bits in the upper place. -/
theorem luiFillsUpperBits : Obligations.LuiFillsUpperBits := by
  refine ⟨fun _ _ hrow => decode_lui (fields_of_mask_opcode hrow), fun s rd imm20 => ⟨_, exec_lui .., ?_⟩⟩
  rw [← upperImm_eq]
  exact regResult_writeBack ..

/-! ### The parts of a constant (R131) -/

/-- The low part as a signed number: adding 0x800 carries into bit 12 exactly when the part is negative. -/
theorem toInt_lowerPart (imm : Word) : (lowerPart imm).toInt = ((imm + 0x800).toNat % 2 ^ 12 : Nat) - 0x800 := by
  have hlow : (lowerPart imm).toNat = imm.toNat % 2 ^ 12 := by simp [lowerPart, BitVec.extractLsb'_toNat]
  have hsum : (imm + 0x800).toNat = (imm.toNat + 0x800) % 2 ^ 32 := BitVec.toNat_add ..
  rw [BitVec.toInt_eq_toNat_cond]
  split <;> omega

/-- The high part in its place is the constant plus 0x800 without its low twelve bits. -/
theorem upperImm_upperPart (imm : Word) :
    upperImm (upperPart imm) = imm + 0x800 - BitVec.ofNat 32 ((imm + 0x800).toNat % 2 ^ 12) := by
  have hhigh : (upperPart imm).toNat = (imm + 0x800).toNat / 2 ^ 12 := by
    rw [upperPart, BitVec.extractLsb'_toNat, Nat.shiftRight_eq_div_pow, Nat.mod_eq_of_lt (by omega)]
  rw [upperImm_eq, hhigh]
  generalize imm + 0x800 = sum
  bv_omega

/-- The low part in its register is the low twelve bits of the constant plus 0x800, less 0x800. -/
theorem sext_lowerPart (imm : Word) : sext (lowerPart imm) = BitVec.ofNat 32 ((imm + 0x800).toNat % 2 ^ 12) - 0x800 := by
  rw [sext_eq_ofInt (by decide) (by decide), toInt_lowerPart, Int.sub_eq_add_neg, BitVec.ofInt_add, BitVec.ofInt_natCast,
    BitVec.sub_eq_add_neg]
  rfl

/-- The two parts add up to the constant (R230). -/
theorem upperImm_add_sext_lowerPart (imm : Word) : upperImm (upperPart imm) + sext (lowerPart imm) = imm := by
  rw [upperImm_upperPart, sext_lowerPart, sub_add_sub_cancel, add_sub_cancel_right]

/-! ### Two instructions in a row -/

theorem exec_addi (rd rs1 : Reg) (imm : Word) (s : State) :
    exec (.addi rd rs1 imm) s = .next (s.writeBack rd (s.readReg rs1 + imm)) := rfl

/-- After two results in one register, that register holds the second value and all else is as before the first. -/
theorem RegResult.trans {s t u : State} {rd : Reg} {v w p q : Word} (hst : RegResult s t rd v p)
    (htu : RegResult t u rd w q) : RegResult s u rd w q := by
  obtain ⟨-, hregs, -, hmem, hstatus, hout, hcfg⟩ := hst
  obtain ⟨hvalue', hregs', hpc', hmem', hstatus', hout', hcfg'⟩ := htu
  refine ⟨?_, fun r hr => (hregs' r hr).trans (hregs r hr), hpc', fun a => (hmem' a).trans (hmem a),
    hstatus'.trans hstatus, hout'.trans hout, hcfg'.trans hcfg⟩
  rw [hvalue', written, written, hcfg]

/-- A hard-wired register reads 0, whatever is made of the value read back from it (R31, R32). -/
theorem written_written_add (s : State) (rd : Reg) (v w : Word) :
    written s rd (written s rd v + w) = written s rd (v + w) := by
  unfold written
  split_ifs <;> rfl

/-- A result, then one that adds to the same register, is the result of the sum. -/
theorem RegResult.trans_add {s t u : State} {rd : Reg} {v w p q : Word} (hst : RegResult s t rd v p)
    (htu : RegResult t u rd (t.readReg rd + w) q) : RegResult s u rd (v + w) q := by
  obtain ⟨hsum, hrest⟩ := hst.trans htu
  obtain ⟨hvalue, -⟩ := hst
  exact ⟨by rw [hsum, hvalue, written_written_add], hrest⟩

/-- Settles O52: the `addi` adds the low part to what the `lui` wrote, and the parts add up to the constant. -/
theorem luiThenAddiBuildsAnyConstant : Obligations.LuiThenAddiBuildsAnyConstant := by
  intro s rd imm
  refine ⟨_, _, _, _, rfl, exec_lui .., exec_addi .., ?_⟩
  have hsum := (regResult_writeBack s rd (upperImm (upperPart imm))).trans_add
    (regResult_writeBack _ rd (_ + sext (lowerPart imm)))
  rwa [upperImm_add_sext_lowerPart, State.writeBack_pc, BitVec.add_assoc] at hsum

end Sys2Proof.Machine

end

section
/-!
PROOF. The custom fused instructions, opcode `0x2b` (47_custom.md R235 to R238): one rule under every choice of the selectors
(O13).
-/

namespace Sys2Proof.Machine

/-- A custom instruction that its selector picks, and whose operation `g` computes `f`, meets the rule of `f`. -/
theorem customRule_of_selectCustom {sel : Config → Selector} {mk : Reg → Reg → Reg → Instr} {f : Word → Word → Word → Word}
    (g : Word → Word → Word → Word)
    (hsel : ∀ cfg rd rs1 rs2, cfg.SelectorsDiffer →
      selectCustom cfg rd rs1 rs2 (sel cfg).funct3 (sel cfg).funct7 = some (mk rd rs1 rs2))
    (hexec : ∀ rd rs1 rs2 s, exec (mk rd rs1 rs2) s = execAccumulate g rd rs1 rs2 s)
    (hvalue : ∀ old a b, g old a b = f old a b) : CustomRule sel mk f := by
  refine ⟨fun cfg raw hdiffer hop hpair => ?word, fun s rd rs1 rs2 => ⟨_, hexec rd rs1 rs2 s, ?run⟩⟩
  case word =>
    have hselect := hsel cfg (rdField raw) (rs1Field raw) (rs2Field raw) hdiffer
    rw [← hpair] at hselect
    exact (decode_custom hop).trans (elim_eq_ok_iff.mpr hselect)
  case run =>
    rw [hvalue]
    exact regResult_writeBack ..

theorem aluMac_eq (old a b : Word) : aluMac old a b = old + BitVec.ofInt 32 (a.toInt * b.toInt) := by
  rw [aluMac, aluMul_eq]

/-- R238: the shift by 4 on 32 bits is the product by 16 modulo 2^32. -/
theorem aluGep_eq (a b : Word) : aluGep a b = a + BitVec.ofNat 32 (b.toNat * 16) :=
  congrArg (a + ·) (aluSll_eq b 4)

/-- Settles O13: one rule for the three; `gep` is the form that ignores the old value of its destination. -/
theorem customInstructionsFuse : Obligations.CustomInstructionsFuse :=
  ⟨customRule_of_selectCustom aluMac (fun _ _ _ _ _ => selectCustom_selMac) (fun _ _ _ _ => rfl) aluMac_eq,
    customRule_of_selectCustom aluAcc (fun _ _ _ _ => selectCustom_selAcc) (fun _ _ _ _ => rfl) fun _ _ _ => rfl,
    customRule_of_selectCustom (fun _ => aluGep) (fun _ _ _ _ => selectCustom_selGep) (fun _ _ _ _ => rfl)
      fun _ => aluGep_eq⟩

end Sys2Proof.Machine

end

section
/-!
PROOF. The environment call (48_ecall.md R245 to R251): the string of service 4, and the service each number names (O14, O15).
-/

namespace Sys2Proof.Machine

/-! ### The string of service 4 (R248) -/

/-- The scan stops at the first zero byte or at the end of memory, and no earlier. -/
theorem isString_cstring (s : State) (a : Word) : IsString s a.toNat (s.cstring a) := by
  have hlen : (s.cstring a).length ≤ s.cfg.memSize - a.toNat := Memory.length_stringFrom_le ..
  refine ⟨fun k hk => ?byte, ?stop⟩
  case byte =>
    obtain ⟨hne, hread⟩ := Memory.getElem_stringFrom s.mem _ _ k hk
    exact ⟨by omega, hne, hread⟩
  case stop =>
    obtain hfull | hzero := Memory.stringFrom_end s.mem (s.cfg.memSize - a.toNat) a.toNat
    · exact .inl (Nat.sub_le_iff_le_add'.mp hfull.ge)
    · exact .inr hzero

section
variable {s : State} {a : Nat} {bytes bytes' : List Byte}

/-- No string at an address goes on where another one has stopped. -/
theorem IsString.length_le (h : IsString s a bytes) (h' : IsString s a bytes') : bytes'.length ≤ bytes.length := by
  obtain ⟨-, hstop⟩ := h
  obtain ⟨hbyte', -⟩ := h'
  by_contra! hlt
  obtain ⟨hin, hne, hread⟩ := hbyte' bytes.length hlt
  obtain hend | hzero := hstop
  · omega
  · exact hne (hread.symm.trans hzero)

theorem IsString.readByte_eq (h : IsString s a bytes) {k : Nat} (hk : k < bytes.length) : s.readByte (a + k) = bytes[k] := by
  obtain ⟨hbyte, -⟩ := h
  obtain ⟨-, -, hread⟩ := hbyte k hk
  exact hread

theorem IsString.unique (h : IsString s a bytes) (h' : IsString s a bytes') : bytes = bytes' := by
  refine List.ext_getElem (Nat.le_antisymm (h'.length_le h) (h.length_le h')) fun k hk hk' => ?_
  exact (h.readByte_eq hk).symm.trans (h'.readByte_eq hk')

end

/-- Settles O15: the scan gives a string at the address, and there is no other. -/
theorem stringServiceScansToZeroOrEnd : Obligations.StringServiceScansToZeroOrEnd :=
  fun s a _ => ⟨fun h => h.unique (isString_cstring s a), fun h => h ▸ isString_cstring s a⟩

/-! ### The services (R246 to R251) -/

/-- An event emitted and the pc advanced: the result of a service that goes on. -/
theorem emitResult_advancePc (s : State) (e : Event) : EmitResult s (s.emit e).advancePc e :=
  ⟨rfl, rfl, fun r => State.readReg_congr r rfl rfl, rfl, fun _ => rfl, rfl⟩

section
variable {rd rs1 : Reg} {funct3 : BitVec 3} {imm12 : BitVec 12} {s t : State}

/-- An equation of `execEcall` names the state that the `ecall` answers. -/
theorem eq_of_exec_ecall {u : State} (ht : exec (.ecall rd rs1 funct3 imm12) s = .next t)
    (hu : execEcall rd rs1 funct3 imm12 s = .next u) : t = u :=
  Host.Outcome.next.inj (ht.symm.trans hu)

/-- A number outside the list names no service (R251). -/
theorem execEcall_of_not_mem (h : (s.readReg 10).toNat ∉ [1, 4, 10, 11]) :
    execEcall rd rs1 funct3 imm12 s = .next (s.raise .invalidEcall (s.readReg 10)) := by
  have hne {n : Nat} (hlt : n < 2 ^ 32) (hn : n ∈ [1, 4, 10, 11]) : s.readReg 10 ≠ BitVec.ofNat 32 n :=
    fun he => h ((Word.toNat_eq_iff _ n hlt).mpr he ▸ hn)
  exact execEcall_unknown (hne (by decide) (by decide)) (hne (by decide) (by decide)) (hne (by decide) (by decide))
    (hne (by decide) (by decide))

end

/-- Settles O14: the equation of `execEcall` for each number, read off the state it answers. -/
theorem ecallServicesByNumber : Obligations.EcallServicesByNumber := by
  refine ⟨fun _ _ hrow => decode_ecall (fields_of_mask_opcode hrow), fun s rd rs1 funct3 imm12 => ?_⟩
  obtain ⟨t, ht⟩ := exec_next (.ecall rd rs1 funct3 imm12) s
  have hnum {n : Nat} (hlt : n < 2 ^ 32) := (Word.toNat_eq_iff (s.readReg 10) n hlt).mp
  refine ⟨t, ht, fun hn => ?printInt, fun hn => ?printString, fun hn => ?exit, fun hn => ?printChar, fun hn => ?unknown⟩
  case printInt =>
    rw [eq_of_exec_ecall ht (execEcall_printInt (hnum (by decide) hn))]
    exact emitResult_advancePc ..
  case printString =>
    rw [eq_of_exec_ecall ht (execEcall_printString (hnum (by decide) hn))]
    exact ⟨_, isString_cstring .., emitResult_advancePc ..⟩
  case exit =>
    rw [eq_of_exec_ecall ht (execEcall_exit (hnum (by decide) hn))]
    exact ⟨rfl, rfl, fun r => State.readReg_congr r rfl rfl, rfl, fun _ => rfl, rfl, rfl, step_notRunning nofun⟩
  case printChar =>
    rw [eq_of_exec_ecall ht (execEcall_printChar (hnum (by decide) hn))]
    exact emitResult_advancePc ..
  case unknown =>
    rw [eq_of_exec_ecall ht (execEcall_of_not_mem hn)]
    exact ⟨fatalHalt_raise .., rfl⟩

end Sys2Proof.Machine

end

section
/-!
PROOF. The fatal halts (60_exceptions.md R262, R264): what raises at each point of a step, and that a raise is the whole of a
step that ends in one (O40, O41).
-/

namespace Sys2Proof.Machine

/-! ### What an instruction raises -/

/-- What the instruction `i` may raise: `OutOfBoundsMemoryAccess` of its own data access, or `InvalidEcall` of an unknown
service number (R260, R264). -/
def MayRaise (s : State) (i : Instr) (kind : FatalKind) (info : Word) : Prop :=
  (kind = .outOfBoundsMemoryAccess ∧ ∃ w, dataAccess s i = some (info, w) ∧ s.cfg.memSize < info.toNat + w.bytes)
    ∨ (kind = .invalidEcall ∧ IsEcall i ∧ info = s.readReg 10 ∧ info.toNat ∉ [1, 4, 10, 11])

/-- From a running state, an instruction that ends fatally did nothing but raise, and had cause to. -/
theorem Change.raise_of_fatal {i : Instr} {s t : State} {kind : FatalKind} {info : Word} (hs : s.status = .running)
    (hc : Change i s t) (hf : t.status = .fatal kind info) : t = s.raise kind info ∧ MayRaise s i kind info := by
  have hrun : s.status ≠ .fatal kind info := by rw [hs]; exact nofun
  cases hc with
  | register _ _ _ _ _ ht | jump _ _ _ ht | store _ _ _ _ _ _ ht | event _ _ _ _ _ ht =>
    subst ht
    exact absurd hf hrun
  | exit _ _ ht =>
    subst ht
    cases hf
  | outOfBounds ea w ha hb ht =>
    subst ht
    cases hf
    exact ⟨rfl, .inl ⟨rfl, w, ha, hb⟩⟩
  | unknownService hi hn ht =>
    subst ht
    cases hf
    exact ⟨rfl, .inr ⟨rfl, hi, rfl, hn⟩⟩

/-! ### The four points of a step (R264) -/

theorem decode_ok_of_legal {cfg : Config} {raw : Word} (hknown : opcodeField raw ∈ knownOpcodes)
    (hlegal : ¬ IllegalFunction cfg raw) : ∃ i, decode cfg raw = .ok i := by
  cases hd : decode cfg raw with
  | ok i => exact ⟨i, rfl⟩
  | error why =>
    cases why with
    | invalidOpcode word => exact absurd hknown ((unknownOpcodesAreInvalidOpcode cfg raw word).mp hd).2
    | invalidInstruction word => exact absurd ((illegalFunctionCodesAreInvalidInstruction cfg raw word).mp hd).2 hlegal

/-- Settles O40: the fetch, the two rejections of the decoder, and the instruction's own raises, point by point. -/
theorem stepRaisesInTheOrderOfItsPoints : Obligations.StepRaisesInTheOrderOfItsPoints := by
  intro s hs
  refine ⟨fun hout => ⟨_, step_fetch_none hs hout, fatalHalt_raise ..⟩, ?_⟩
  rintro hin raw rfl
  refine ⟨fun hunknown => ?opcode, fun hillegal => ?function, fun hknown hlegal => ?execute⟩
  case opcode =>
    exact ⟨_, step_rejected hs hin (decode_of_unknown_opcode hunknown), fatalHalt_raise ..⟩
  case function =>
    have hd := (illegalFunctionCodesAreInvalidInstruction s.cfg _ _).mpr ⟨rfl, hillegal⟩
    exact ⟨_, step_rejected hs hin hd, fatalHalt_raise ..⟩
  case execute =>
    obtain ⟨i, hd⟩ := decode_ok_of_legal hknown hlegal
    obtain ⟨t, ht⟩ := exec_next i s
    exact ⟨i, t, hd, step_exec hs hin hd, ht, fun _ _ hf => ((exec_change ht).raise_of_fatal hs hf).2⟩

/-! ### A fatal halt is precise and final (R262) -/

/-- The raise of a rejected word is the fatal halt its status names. -/
theorem State.raiseRejected_eq_of_fatal {s : State} {why : Rejection} {kind : FatalKind} {info : Word}
    (hf : (s.raiseRejected why).status = .fatal kind info) : s.raiseRejected why = s.raise kind info := by
  cases why <;> cases hf <;> rfl

/-- A step that ends fatally did nothing but raise. -/
theorem step_raise_of_fatal {s t : State} {kind : FatalKind} {info : Word} (h : step s = .next t)
    (hf : t.status = .fatal kind info) : t = s.raise kind info := by
  obtain ⟨hs, ⟨-, rfl⟩ | ⟨-, why, -, rfl⟩ | ⟨-, i, -, hexec⟩⟩ := step_cases h
  · cases hf
    rfl
  · exact State.raiseRejected_eq_of_fatal hf
  · exact ((exec_change hexec).raise_of_fatal hs hf).1

/-- Settles O41: the step only raised, and the status it left stops the next. -/
theorem fatalHaltIsPreciseAndFinal : Obligations.FatalHaltIsPreciseAndFinal := by
  intro s t kind info h hf
  rw [step_raise_of_fatal h hf]
  exact ⟨fatalHalt_raise .., step_notRunning nofun, rfl⟩

end Sys2Proof.Machine

end

section
/-!
PROOF. Words placed and words written out: the step after a word is placed at the pc (70_reset_and_hazards.md R291), and the
words of the spec's examples (30_encoding.md section 3) (O24, O49).
-/

namespace Sys2Proof.Machine

/-! ### A placed word (R291) -/

theorem tableWord_toNat (v : Word) : tableWord 32 v.toNat = v := by
  rw [tableWord, Nat.mod_eq_of_lt v.isLt, BitVec.ofNat_toNat, BitVec.setWidth_eq]

/-- The word at the pc after a word is placed there is that word. -/
theorem wordAt_withFetchWord {s : State} (hwf : s.mem.wf) (v : Word) :
    wordAt (s.withFetchWord 32 v.toNat) s.pc.toNat = v := by
  rw [wordAt_eq_readBytes, State.withFetchWord, tableWord_toNat, Memory.readBytes_writeBytes_word hwf]

/-- Settles O49: the placed word is the one at the pc, and it decodes to the instruction it encodes. -/
theorem placedWordIsFetchedNext : Obligations.PlacedWordIsFetchedNext := by
  intro s i hwf hs hin hi
  have hd : decode s.cfg (wordAt (s.withFetchWord 32 (encode s.cfg i).toNat) s.pc.toNat) = .ok i := by
    rw [wordAt_withFetchWord hwf, decode_encode hi]
  exact step_exec hs hin hd

/-! ### The words of the spec's examples -/

theorem decode_of_encode_eq {cfg : Config} {raw : Word} {i : Instr} (hi : i.WellFormed cfg) (h : encode cfg i = raw) :
    decode cfg raw = .ok i :=
  h ▸ decode_encode hi

/-- Settles O24: each word is the encoding of its instruction, which is well formed under the default selectors. -/
theorem specWordsDecode : Obligations.SpecWordsDecode := by
  refine ⟨?add, ?slli, ?lw, ?sw, ?beq, ?jal, ?lui, ?mac, ?gep, ?ecall⟩
  case add | sw | beq | jal | lui | ecall => exact decode_of_encode_eq trivial rfl
  case slli | lw | mac | gep => exact decode_of_encode_eq (by decide) rfl

end Sys2Proof.Machine

end
